-- ==== Sys2Proof/Word.lean ====
section
/-! DEFINITION. The word type of the machine (00_scope.md R5, R8; 10_state.md R20). -/

namespace Sys2Proof

/-- A word: "a 16-bit unsigned value; all memory cells and registers store words" (R10). Bit 15 is the most significant bit (R8). -/
abbrev Word := BitVec 16

/-- Half a word. No instruction touches one; memory is written down in bytes (log 2). -/
abbrev Byte := BitVec 8

end Sys2Proof
end

