-- ==== Sys2Proof/Syntax.lean ====
section
/-! DEFINITION. The eleven instructions as syntax: one constructor for each row of spec/opcode_table.json. -/

namespace Sys2Proof

/-- A register number, 0 to 7 (10_state.md R20): R6 is the stack pointer by convention only, R7 the program counter. -/
abbrev Reg := Fin 8

/-- The program counter's register number (00_scope.md R5, 10_state.md R23). -/
abbrev pcReg : Reg := 7

/-- The eight addressing modes (30_encoding.md R66), in the order of their numbers 0 to 7. -/
inductive Mode where
  /-- 0, register (R81) -/
  | register
  /-- 1, register indirect (R82) -/
  | indirect
  /-- 2, autoincrement (R83); on R7 immediate (R84) -/
  | autoInc
  /-- 3, autoincrement deferred (R85); on R7 absolute (R86) -/
  | autoIncDeferred
  /-- 4, autodecrement (R87) -/
  | autoDec
  /-- 5, autodecrement deferred (R88) -/
  | autoDecDeferred
  /-- 6, index (R89); on R7 relative (R90) -/
  | index
  /-- 7, index deferred (R91); on R7 relative deferred (R92) -/
  | indexDeferred
  deriving DecidableEq, Repr

/-- An operand specifier: a mode and a register, all 64 combinations legal (30_encoding.md R66). The extension word some of
them use is no part of it: the resolver fetches it from memory when it resolves the operand (R68, R95; log 7). -/
structure Operand where
  mode : Mode
  reg : Reg
  deriving DecidableEq, Repr

/-- The instructions (00_scope.md R1, 30_encoding.md R69). Operands in the order of the spec's text: source, destination. -/
inductive Instr where
  /-- move, R121 -/
  | mov (src dst : Operand)
  /-- compare, R122 -/
  | cmp (src dst : Operand)
  /-- add, R123 -/
  | add (src dst : Operand)
  /-- subtract, R124 -/
  | sub (src dst : Operand)
  /-- subtract-one-and-branch, R143; `off` is the word count 0 to 63 (R67) -/
  | sob (r : Reg) (off : Nat)
  /-- branch, R142; `off` is the signed word count -128 to 127 (R67) -/
  | br (off : Int)
  /-- branch-if-not-equal, R141; `off` as for `br` -/
  | bne (off : Int)
  /-- branch-if-equal, R140; `off` as for `br` -/
  | beq (off : Int)
  /-- arithmetic-shift-right, R131 -/
  | asr (dst : Operand)
  /-- arithmetic-shift-left, R130 -/
  | asl (dst : Operand)
  /-- halt, R150 -/
  | halt
  deriving DecidableEq, Repr

end Sys2Proof
end

