-- ==== Sys2Proof/WellFormed.lean ====
section
/-! DEFINITION. Which instruction terms an instruction word can hold (30_encoding.md R63, R64, R67). -/

namespace Sys2Proof

/-- A branch offset fits the signed 8-bit field: -128 to 127 (30_encoding.md R67). -/
def branchOffsetFits (off : Int) : Bool := decide (-128 ≤ off) && decide (off ≤ 127)

/-- A SOB offset fits the unsigned 6-bit field: 0 to 63 (30_encoding.md R67). -/
def sobOffsetFits (off : Nat) : Bool := decide (off ≤ 63)

/-- The instruction can be encoded. Modes and registers fit by their types: all 64 specifiers are legal (R66). -/
def Instr.wellFormed : Instr → Bool
  | .mov _ _ => true
  | .cmp _ _ => true
  | .add _ _ => true
  | .sub _ _ => true
  | .sob _ off => sobOffsetFits off
  | .br off => branchOffsetFits off
  | .bne off => branchOffsetFits off
  | .beq off => branchOffsetFits off
  | .asr _ => true
  | .asl _ => true
  | .halt => true

end Sys2Proof
end

