-- ==== Sys2Proof/Decode.lean ====
section
/-! DEFINITION. The decoder (41_decoder_and_loop.md R100, R101), the encoder and the opcode table (30_encoding.md R60 to R72). -/

namespace Sys2Proof

/-! ### Fields of a first word (30_encoding.md R61 to R67) -/

/-- `w[lo+len-1 : lo]` (00_scope.md R8). -/
def field (w : Word) (lo len : Nat) : BitVec len := w.extractLsb' lo len

/-- The mode a 3-bit field names (30_encoding.md R66). -/
def modeOfField (b : BitVec 3) : Mode :=
  match b.toNat with
  | 0 => .register
  | 1 => .indirect
  | 2 => .autoInc
  | 3 => .autoIncDeferred
  | 4 => .autoDec
  | 5 => .autoDecDeferred
  | 6 => .index
  | _ => .indexDeferred

/-- The register a 3-bit field names (10_state.md R20). -/
def regOfField (b : BitVec 3) : Reg := ⟨b.toNat, b.isLt⟩

/-- The source specifier of format D: mode in bits 11:9, register in bits 8:6 (30_encoding.md R61). -/
def srcOperand (w : Word) : Operand := ⟨modeOfField (field w 9 3), regOfField (field w 6 3)⟩

/-- The destination specifier of formats D and S: mode in bits 5:3, register in bits 2:0 (30_encoding.md R61, R62). -/
def dstOperand (w : Word) : Operand := ⟨modeOfField (field w 3 3), regOfField (field w 0 3)⟩

/-- `sext_8(w[7:0])`, the branch offset in words (30_encoding.md R63, R67). -/
def branchOffset (w : Word) : Int := (field w 0 8).toInt

/-- `zext_6(w[5:0])`, the SOB offset in words (30_encoding.md R64, R67; the spec's decision D6). -/
def sobOffset (w : Word) : Nat := (field w 0 6).toNat

/-! ### The opcode cascade (41_decoder_and_loop.md R100) -/

/-- Tier 1, the high 4 bits: MOV, CMP, ADD, SUB. -/
def decodeTier4 (w : Word) : Option Instr :=
  if field w 12 4 = 1#4 then some (.mov (srcOperand w) (dstOperand w))
  else if field w 12 4 = 2#4 then some (.cmp (srcOperand w) (dstOperand w))
  else if field w 12 4 = 6#4 then some (.add (srcOperand w) (dstOperand w))
  else if field w 12 4 = 14#4 then some (.sub (srcOperand w) (dstOperand w))
  else none

/-- Tier 2, the high 7 bits: SOB, its register in bits 8:6 (30_encoding.md R64; the spec's decision D5). -/
def decodeTier7 (w : Word) : Option Instr :=
  if field w 9 7 = 0o77#7 then some (.sob (regOfField (field w 6 3)) (sobOffset w)) else none

/-- Tier 3, the high 8 bits: BR, BNE, BEQ. -/
def decodeTier8 (w : Word) : Option Instr :=
  if field w 8 8 = 1#8 then some (.br (branchOffset w))
  else if field w 8 8 = 2#8 then some (.bne (branchOffset w))
  else if field w 8 8 = 3#8 then some (.beq (branchOffset w))
  else none

/-- Tier 4, the high 10 bits: ASR, ASL. -/
def decodeTier10 (w : Word) : Option Instr :=
  if field w 6 10 = 0o62#10 then some (.asr (dstOperand w))
  else if field w 6 10 = 0o63#10 then some (.asl (dstOperand w))
  else none

/-- Tier 5, the all-zero word: HALT. -/
def decodeTierZero (w : Word) : Option Instr :=
  if w = 0#16 then some .halt else none

/-- The decoder of a first word: the tiers in the normative order 4, 7, 8, 10, zero, the first match winning
(41_decoder_and_loop.md R100, R101). `none` is an invalid instruction (30_encoding.md R70). -/
def decodeWord (w : Word) : Option Instr :=
  (decodeTier4 w).or ((decodeTier7 w).or ((decodeTier8 w).or ((decodeTier10 w).or (decodeTierZero w))))

/-! ### Decoding bytes -/

/-- A word from its two bytes, the low one at the lower address (log 2). -/
def wordOfBytes (lo hi : Byte) : Word := hi ++ lo

/-- The byte of a word that memory lists at the even address (log 2). -/
def lowByte (w : Word) : Byte := w.extractLsb' 0 8

/-- The byte of a word that memory lists at the odd address (log 2). -/
def highByte (w : Word) : Byte := w.extractLsb' 8 8

/-- Why bytes do not decode. -/
inductive DecodeError where
  /-- fewer than two bytes: there is no first word -/
  | truncated
  /-- the first word matches no tier (30_encoding.md R70): the machine raises `DecodeFault(w)` -/
  | invalidWord (w : Word)
  deriving DecidableEq, Repr

/-- Decode the first word of a byte sequence and give back the bytes after it. Extension words are never decoded (R70, R180). -/
def decode : List Byte → Except DecodeError (Instr × List Byte)
  | lo :: hi :: rest =>
    match decodeWord (wordOfBytes lo hi) with
    | some i => .ok (i, rest)
    | none => .error (.invalidWord (wordOfBytes lo hi))
  | _ => .error .truncated

/-- The longest instruction, in words (30_encoding.md R60). -/
def maxInstrWords : Nat := 3

/-- The k-th word of an instruction whose bits are `w`, numbered as spec/opcode_table.json numbers them, bits from `nbits` up zero. -/
def tableWord (nbits w k : Nat) : Word := BitVec.ofNat 16 ((w % 2 ^ nbits) >>> (16 * k))

/-- The bytes of that instruction as memory holds them, up to the longest instruction. -/
def tableBytes (nbits w : Nat) : List Byte :=
  (List.range maxInstrWords).flatMap fun k => [lowByte (tableWord nbits w k), highByte (tableWord nbits w k)]

/-- What the decoder reads from those bytes. -/
def decodeTableWord (nbits w : Nat) : Option Instr :=
  match decode (tableBytes nbits w) with
  | .ok (i, _) => some i
  | .error _ => none

/-! ### Length (30_encoding.md R68) -/

/-- need(m, r): the extension words an operand uses. -/
def Operand.extensionWords (o : Operand) : Nat :=
  match o.mode with
  | .index | .indexDeferred => 1
  | .autoInc | .autoIncDeferred => if o.reg = pcReg then 1 else 0
  | .register | .indirect | .autoDec | .autoDecDeferred => 0

/-- The static length of an instruction in words. -/
def Instr.lengthWords : Instr → Nat
  | .mov src dst => 1 + src.extensionWords + dst.extensionWords
  | .cmp src dst => 1 + src.extensionWords + dst.extensionWords
  | .add src dst => 1 + src.extensionWords + dst.extensionWords
  | .sub src dst => 1 + src.extensionWords + dst.extensionWords
  | .sob _ _ => 1
  | .br _ => 1
  | .bne _ => 1
  | .beq _ => 1
  | .asr dst => 1 + dst.extensionWords
  | .asl dst => 1 + dst.extensionWords
  | .halt => 1

/-! ### The encoder (30_encoding.md R61 to R66, R69) -/

/-- The number of a mode (30_encoding.md R66). -/
def modeField : Mode → BitVec 3
  | .register => 0#3
  | .indirect => 1#3
  | .autoInc => 2#3
  | .autoIncDeferred => 3#3
  | .autoDec => 4#3
  | .autoDecDeferred => 5#3
  | .index => 6#3
  | .indexDeferred => 7#3

/-- The number of a register in its 3-bit field. -/
def regField (r : Reg) : BitVec 3 := BitVec.ofNat 3 r.val

/-- The six bits of a specifier: mode above register. -/
def operandField (o : Operand) : BitVec 6 := modeField o.mode ++ regField o.reg

/-- Format D: op4, source, destination (30_encoding.md R61). -/
def formatD (op : BitVec 4) (src dst : Operand) : Word := op ++ operandField src ++ operandField dst

/-- Format S: op10, destination (30_encoding.md R62). -/
def formatS (op : BitVec 10) (dst : Operand) : Word := op ++ operandField dst

/-- Format B: op8, off8 (30_encoding.md R63). -/
def formatB (op : BitVec 8) (off : Int) : Word := op ++ BitVec.ofInt 8 off

/-- Format R: op7, register, off6 (30_encoding.md R64). -/
def formatR (op : BitVec 7) (r : Reg) (off : Nat) : Word := op ++ regField r ++ BitVec.ofNat 6 off

/-- The first word of an instruction. Its extension words, if any, are data the program places after it (log 7). -/
def encode : Instr → Word
  | .mov src dst => formatD 1#4 src dst
  | .cmp src dst => formatD 2#4 src dst
  | .add src dst => formatD 6#4 src dst
  | .sub src dst => formatD 14#4 src dst
  | .sob r off => formatR 0o77#7 r off
  | .br off => formatB 1#8 off
  | .bne off => formatB 2#8 off
  | .beq off => formatB 3#8 off
  | .asr dst => formatS 0o62#10 dst
  | .asl dst => formatS 0o63#10 dst
  | .halt => 0#16

/-! ### The masked-match table (30_encoding.md R69, R72) -/

/-- One row of the opcode map: a word selects it exactly when `w &&& mask = pattern` (R69). -/
structure OpcodeRow where
  mnemonic : String
  pattern : Word
  mask : Word
  deriving DecidableEq, Repr

/-- The opcode map of 30_encoding.md R69, row by row. -/
def opcodeMap : List OpcodeRow :=
  [⟨"MOV", 0x1000#16, 0xF000#16⟩,
   ⟨"CMP", 0x2000#16, 0xF000#16⟩,
   ⟨"ADD", 0x6000#16, 0xF000#16⟩,
   ⟨"SUB", 0xE000#16, 0xF000#16⟩,
   ⟨"SOB", 0x7E00#16, 0xFE00#16⟩,
   ⟨"BR", 0x0100#16, 0xFF00#16⟩,
   ⟨"BNE", 0x0200#16, 0xFF00#16⟩,
   ⟨"BEQ", 0x0300#16, 0xFF00#16⟩,
   ⟨"ASR", 0x0C80#16, 0xFFC0#16⟩,
   ⟨"ASL", 0x0CC0#16, 0xFFC0#16⟩,
   ⟨"HALT", 0x0000#16, 0xFFFF#16⟩]

/-- A word selects a row. -/
def OpcodeRow.selects (row : OpcodeRow) (w : Word) : Bool := decide (w &&& row.mask = row.pattern)

/-- The mnemonic of an instruction. -/
def Instr.mnemonic : Instr → String
  | .mov _ _ => "MOV"
  | .cmp _ _ => "CMP"
  | .add _ _ => "ADD"
  | .sub _ _ => "SUB"
  | .sob _ _ => "SOB"
  | .br _ => "BR"
  | .bne _ => "BNE"
  | .beq _ => "BEQ"
  | .asr _ => "ASR"
  | .asl _ => "ASL"
  | .halt => "HALT"

end Sys2Proof
end

