-- ==== Sys2Proof/Config.lean ====
section
/-! DEFINITION. What an implementation fixes (00_scope.md R5) and the values reset leaves (10_state.md R34). -/

namespace Sys2Proof.Config

/-- MEM_WORDS is at least 1 (20_memory.md R48). -/
def minMemWords : Nat := 1

/-- MEM_WORDS is at most 32768 (20_memory.md R48): a 16-bit byte address has word indices 0 to 32767. -/
def maxMemWords : Nat := 32768

/-- The MEM_WORDS of `State.reset`. DESIGN CHOICE (log 1): the spec leaves the size OPEN (D3), an argument of the model;
`memWords` is a field of the state, so that a statement about every state is a statement about every size. -/
def resetMemWords : Nat := maxMemWords

/-- What a byte of memory that no image and no store has written reads as: 0 (10_state.md R34, R200).
The zero is the spec's own decision D15 (log 5). -/
def unloadedByte : Byte := 0#8

/-- R0 to R6 after reset: 0 (10_state.md R34), the spec's own decision D15 (log 5). -/
def resetRegister : Word := 0#16

/-- The PC after reset: 0 (10_state.md R34, 70_reset_and_hazards.md R202). -/
def resetPc : Word := 0#16

/-- N, Z, V and C after reset: 0 (10_state.md R34), the spec's own decision D15 (log 5). -/
def resetFlag : Bool := false

end Sys2Proof.Config
end

