-- ==== Sys2Proof/Machine/State.lean ====
section
/-! DEFINITION. Every piece of state the spec gives the machine (10_state.md R20 to R34, 20_memory.md R40), its values after
reset, and the updates of one field. Plain data. -/

namespace Sys2Proof.Machine

/-- The four condition codes, "four independent booleans", no register (10_state.md R26). -/
@[ext]
structure Flags where
  /-- N, negative -/
  n : Bool
  /-- Z, zero -/
  z : Bool
  /-- V, overflow -/
  v : Bool
  /-- C, carry -/
  c : Bool
  deriving DecidableEq, Repr

/-- The six execution counters, natural numbers with no upper bound (10_state.md R30). -/
@[ext]
structure Counters where
  /-- n_instr, instructions completed -/
  instr : Nat
  /-- n_fetch, instruction words fetched -/
  fetch : Nat
  /-- n_read, data words read -/
  read : Nat
  /-- n_write, data words written -/
  write : Nat
  /-- n_branch, branches executed -/
  branch : Nat
  /-- n_taken, branches taken -/
  taken : Nat
  deriving DecidableEq, Repr

/-- The two fatal conditions (60_exceptions.md R182). -/
inductive FaultKind where
  /-- DECODE: the first word is an invalid instruction (R180) -/
  | decode
  /-- BOUNDS: an access outside memory (R181) -/
  | bounds
  deriving DecidableEq, Repr

/-- The run status (10_state.md R32). -/
inductive Status where
  /-- RUN -/
  | running
  /-- HALTED: a halt instruction was executed -/
  | halted
  /-- FAULT(kind, info): info is the offending word (DECODE) or address (BOUNDS) -/
  | fault (kind : FaultKind) (info : Word)
  deriving DecidableEq, Repr

/-- Memory as byte cells: addresses strictly rising, no cell holding what an unlisted address reads as (`Memory.wf`).
Word k of the spec's array is the bytes at 2k and 2k+1 (log 2). -/
abbrev Memory := List Host.Cell

/-- The state of the core: 10_state.md and 20_memory.md, whole (R28, R29, R33: there is no other state). -/
@[ext]
structure State where
  /-- R0 to R7 (R20); R7 is the PC, the same storage (R23) -/
  regs : Vector Word 8
  /-- N, Z, V, C (R26) -/
  flags : Flags
  /-- the six counters (R30) -/
  counters : Counters
  /-- the run status (R32) -/
  status : Status
  /-- the memory array M (R40) -/
  mem : Memory
  /-- MEM_WORDS, the number of words in memory: a parameter that does not change during a run (R40, R48; log 1) -/
  memWords : Nat
  deriving DecidableEq, Repr

/-- Why the machine has no next step. Both are raised by `step` only, when it is asked for a step of a stopped machine:
"in them the core has no step" (10_state.md R32). The fatal conditions themselves are NEXT states (log 3). -/
inductive Fault where
  /-- the status is HALTED (45_halt.md R150). Raised by `step`. Safe: nothing is claimed of such a step (log 4). -/
  | halted
  /-- the status is FAULT(kind, info) (60_exceptions.md R180, R181). Raised by `step`. Safe, as `halted` is (log 4). -/
  | faulted (kind : FaultKind) (info : Word)
  deriving DecidableEq, Repr

/-- Why there is no meaning. -/
inductive Refusal where
  /-- an instruction that has no meaning yet. Raised by `exec` only; no arm of this model raises it. Safe. -/
  | notModelled (mnemonic : String)
  /-- the image has more words than memory: a host error, outside the spec (70_reset_and_hazards.md R203). Raised by
  `launch` only, before the first step; no step raises it. Safe (log 9). -/
  | imageTooLong
  /-- MEM_WORDS is not from 1 to 32768 (20_memory.md R48). Raised by `launch` only, before the first step; no step
  raises it. Safe (log 9). -/
  | memorySizeOutOfRange
  deriving DecidableEq, Repr

/-- All counters 0 (10_state.md R34). -/
def Counters.zero : Counters := ⟨0, 0, 0, 0, 0, 0⟩

/-- The machine right after reset with a memory of `memWords` words and no image placed (10_state.md R34,
70_reset_and_hazards.md R200). -/
def State.resetWith (memWords : Nat) : State where
  regs := (Vector.replicate 8 Config.resetRegister).set 7 Config.resetPc
  flags := ⟨Config.resetFlag, Config.resetFlag, Config.resetFlag, Config.resetFlag⟩
  counters := Counters.zero
  status := .running
  mem := []
  memWords := memWords

/-- The machine right after reset; its MEM_WORDS is `Config.resetMemWords`, a DESIGN CHOICE (log 1). -/
def State.reset : State := State.resetWith Config.resetMemWords

/-- The general register r (10_state.md R20). -/
def State.reg (s : State) (r : Reg) : Word := s.regs[r]

/-- The program counter, which is R7 (10_state.md R23). -/
def State.pc (s : State) : Word := s.reg pcReg

/-- Write the general register r (10_state.md R20: none is hardwired). -/
def State.setReg (s : State) (r : Reg) (v : Word) : State := { s with regs := s.regs.set r v }

/-- Write the program counter (00_scope.md R9: `pc <- v` writes R7). -/
def State.setPc (s : State) (v : Word) : State := s.setReg pcReg v

/-- Replace all four flags together (46_condition_codes.md R166). -/
def State.setFlags (s : State) (f : Flags) : State := { s with flags := f }

/-- Write the run status. -/
def State.setStatus (s : State) (st : Status) : State := { s with status := st }

/-- Replace the memory. -/
def State.setMem (s : State) (m : Memory) : State := { s with mem := m }

/-- Replace the counters. -/
def State.setCounters (s : State) (k : Counters) : State := { s with counters := k }

end Sys2Proof.Machine
end

