-- ==== Sys2Proof/Machine/Ops.lean ====
section
/-! DEFINITION. The shared operations: memory, the five memory primitives (20_memory.md R41 to R46), the counters
(10_state.md R31), taking a fault (60_exceptions.md R180, R181, R184), control transfer, completing a step. -/

namespace Sys2Proof.Machine

/-! ### Memory as cells (log 2) -/

/-- The canonical form: addresses strictly rising, no cell holding what an unlisted address reads as. -/
abbrev Memory.wf (m : Memory) : Prop :=
  m.Pairwise (fun a b => a.1 < b.1) ∧ ∀ c ∈ m, c.2 ≠ Config.unloadedByte

/-- The byte at an address; an unlisted one reads as `Config.unloadedByte` (10_state.md R34). -/
def Memory.readByte : Memory → Nat → Byte
  | [], _ => Config.unloadedByte
  | c :: m, a => if c.1 = a then c.2 else Memory.readByte m a

/-- Take the cell of an address out. -/
def Memory.eraseByte (m : Memory) (a : Nat) : Memory := m.filter fun c => decide (c.1 ≠ a)

/-- Put a cell in before the first cell of a higher address. -/
def Memory.insertByte : Memory → Nat → Byte → Memory
  | [], a, b => [(a, b)]
  | c :: m, a, b => if a < c.1 then (a, b) :: c :: m else c :: Memory.insertByte m a b

/-- Write one byte and keep the canonical form. -/
def Memory.writeByte (m : Memory) (a : Nat) (b : Byte) : Memory :=
  if b = Config.unloadedByte then m.eraseByte a else (m.eraseByte a).insertByte a b

/-- `M[k]`, the word at word index k (20_memory.md R40). -/
def Memory.readWord (m : Memory) (k : Nat) : Word := wordOfBytes (m.readByte (2 * k)) (m.readByte (2 * k + 1))

/-- `M[k] <- v`: the whole word and nothing else (20_memory.md R43). -/
def Memory.writeWord (m : Memory) (k : Nat) (v : Word) : Memory :=
  (m.writeByte (2 * k) (lowByte v)).writeByte (2 * k + 1) (highByte v)

/-! ### Addresses -/

/-- `idx(A) = A[15:1]`: bit 0 of an address is ignored (20_memory.md R41). -/
def wordIndex (a : Word) : Nat := (a >>> 1).toNat

/-- Whether the word an address names exists (20_memory.md R42). -/
def State.inBounds (s : State) (a : Word) : Bool := decide (wordIndex a < s.memWords)

/-- The memory word a byte address names. -/
def State.wordAt (s : State) (a : Word) : Word := s.mem.readWord (wordIndex a)

/-- "1 word" in address units (10_state.md R24, 40_operand_resolver.md R83, R87; the spec's decision D1). -/
def wordStep : Word := 2#16

/-! ### Taking a fault -/

/-- What an operation that may fault answers: a value and the state after it, or the state the fault left, in which
`status` is FAULT (00_scope.md R9: a `raise` ends the step at once, what stands before it has taken effect). -/
inductive Access (α : Type) where
  | ok (value : α) (s : State)
  | stopped (s : State)
  deriving DecidableEq, Repr

/-- Go on with the value, unless a fault has ended the step. -/
def Access.andThen {α β : Type} (x : Access α) (f : α → State → Access β) : Access β :=
  match x with
  | .ok v s => f v s
  | .stopped s => .stopped s

/-- Taking a fatal condition: `status <- FAULT(kind, info)` and nothing else. Nothing is saved, no vector is read, no mode
changes, control goes nowhere (60_exceptions.md R180, R181, R186). What the step did before stands (R184; log 3).
There is no return from it beside it: the core has no such instruction (45_halt.md R151, 60_exceptions.md R186). -/
def raiseFault (kind : FaultKind) (info : Word) (s : State) : State := s.setStatus (.fault kind info)

/-- The optional number of a fault kind (60_exceptions.md R182). -/
def faultNumber : FaultKind → Nat
  | .decode => 1
  | .bounds => 2

/-! ### Counters (10_state.md R31) -/

def countInstr (s : State) : State := s.setCounters { s.counters with instr := s.counters.instr + 1 }
def countFetch (s : State) : State := s.setCounters { s.counters with fetch := s.counters.fetch + 1 }
def countRead (s : State) : State := s.setCounters { s.counters with read := s.counters.read + 1 }
def countWrite (s : State) : State := s.setCounters { s.counters with write := s.counters.write + 1 }
def countBranch (s : State) : State := s.setCounters { s.counters with branch := s.counters.branch + 1 }
def countTaken (s : State) : State := s.setCounters { s.counters with taken := s.counters.taken + 1 }

/-! ### The memory primitives -/

/-- `MemRead(A, 2)`: the bounds check, then the word (20_memory.md R42). -/
def memRead (a : Word) (s : State) : Access Word :=
  if s.inBounds a then .ok (s.wordAt a) s else .stopped (raiseFault .bounds a s)

/-- `MemWrite(A, 2, v)`: the bounds check, then the store (20_memory.md R43). -/
def memWrite (a v : Word) (s : State) : Access Unit :=
  if s.inBounds a then .ok () (s.setMem (s.mem.writeWord (wordIndex a) v)) else .stopped (raiseFault .bounds a s)

/-- `FetchWord()`: the word at the PC, counted, the PC advanced past it at once (20_memory.md R44, 10_state.md R24). -/
def fetchWord (s : State) : Access Word :=
  (memRead s.pc s).andThen fun w t => .ok w ((countFetch t).setPc (s.pc + wordStep))

/-- `DataRead(A)` (20_memory.md R45). -/
def dataRead (a : Word) (s : State) : Access Word :=
  (memRead a s).andThen fun v t => .ok v (countRead t)

/-- `DataWrite(A, v)` (20_memory.md R46). -/
def dataWrite (a v : Word) (s : State) : Access Unit :=
  (memWrite a v s).andThen fun _ t => .ok () (countWrite t)

/-! ### Control transfer (44_branches.md R140 to R144) -/

/-- An integer displacement as a word, modulo 2^16. -/
def displacement (d : Int) : Word := BitVec.ofInt 16 d

/-- A taken branch: the PC moves by the displacement from where it stands and the branch counts as taken (R140, R144 (b):
the target is not checked here). -/
def takeBranch (d : Int) (s : State) : State := countTaken (s.setPc (s.pc + displacement d))

/-- A branch: counted whether taken or not (10_state.md R31). -/
def branchWhen (taken : Bool) (d : Int) (s : State) : State :=
  if taken then takeBranch d (countBranch s) else countBranch s

/-! ### Ending an instruction -/

/-- A handler has run to its end or a fault has ended it: either way the machine is in the state it left. -/
def finish (x : Access Unit) : Host.Outcome State Fault Refusal :=
  match x with
  | .ok _ s => .next s
  | .stopped s => .next s

/-- Whether a fault has ended the step. -/
def Status.isFault : Status → Bool
  | .fault _ _ => true
  | .running => false
  | .halted => false

/-- The last action of a step: `n_instr` counts an instruction that completed without a fault, HALT included
(41_decoder_and_loop.md R103). -/
def completeStep (s : State) : State := if s.status.isFault then s else countInstr s

/-- The same of an outcome. -/
def retire : Host.Outcome State Fault Refusal → Host.Outcome State Fault Refusal
  | .next s => .next (completeStep s)
  | .fault r => .fault r
  | .refused r => .refused r

end Sys2Proof.Machine
end

