-- ==== Sys2Proof/Machine/Branches.lean ====
section
/-! DEFINITION. BEQ, BNE, BR, SOB (44_branches.md). The PC here is already past the branch word (10_state.md R24). -/

namespace Sys2Proof.Machine

/-- BEQ (R140). -/
def execBeq (off : Int) (s : State) : Host.Outcome State Fault Refusal :=
  .next (branchWhen s.flags.z (2 * off) s)

/-- BNE (R141). -/
def execBne (off : Int) (s : State) : Host.Outcome State Fault Refusal :=
  .next (branchWhen (!s.flags.z) (2 * off) s)

/-- BR (R142). -/
def execBr (off : Int) (s : State) : Host.Outcome State Fault Refusal :=
  .next (branchWhen true (2 * off) s)

/-- SOB (R143): the register is decremented first and tested after; the offset is subtracted (the spec's decision D6).
With R7 as the register the decremented PC is what the offset is subtracted from. -/
def execSob (r : Reg) (off : Nat) (s : State) : Host.Outcome State Fault Refusal :=
  let t := s.setReg r (s.reg r - 1#16)
  .next (branchWhen (decide (t.reg r ≠ 0#16)) (-(2 * (off : Int))) t)

end Sys2Proof.Machine
end

