-- ==== Sys2Proof/Machine/Flags.lean ====
section
/-! DEFINITION. The condition-code unit: one pure function for each instruction category (46_condition_codes.md R160 to R166).
`d` is the destination's value, `s` the source's, `res` the 16-bit result. -/

namespace Sys2Proof.Machine

/-- Bit 15, the sign bit. -/
def signBit (w : Word) : Bool := w.msb

/-- Z: the result equals zero (R160). -/
def isZero (w : Word) : Bool := decide (w = 0#16)

/-- MOV: N and Z of the value, V and C cleared (R160, R161). -/
def moveFlags (res : Word) : Flags where
  n := signBit res
  z := isZero res
  v := false
  c := false

/-- ADD: V when the operands have one sign and the result the other, C when the untruncated sum passes 16 bits (R162). -/
def addFlags (d s res : Word) : Flags where
  n := signBit res
  z := isZero res
  v := decide (signBit d = signBit s) && decide (signBit res ≠ signBit d)
  c := decide (d.toNat + s.toNat ≥ 2 ^ 16)

/-- SUB and CMP, `res = d - s`: V when the operand signs differ and the result has the subtrahend's, C the borrow (R163;
the spec's decisions D12 and D14). -/
def subFlags (d s res : Word) : Flags where
  n := signBit res
  z := isZero res
  v := decide (signBit d ≠ signBit s) && decide (signBit res = signBit s)
  c := decide (d.toNat < s.toNat)

/-- ASL: V the sign change, C the bit shifted out at the top (R164). -/
def shiftLeftFlags (d res : Word) : Flags where
  n := signBit res
  z := isZero res
  v := decide (signBit res ≠ signBit d)
  c := signBit d

/-- ASR: V the sign change, which never happens, C the bit shifted out at the bottom (R165; the spec's decision D13). -/
def shiftRightFlags (d res : Word) : Flags where
  n := signBit res
  z := isZero res
  v := decide (signBit res ≠ signBit d)
  c := d.getLsbD 0

end Sys2Proof.Machine
end

