-- ==== Sys2Proof/Machine/Operands.lean ====
section
/-! DEFINITION. The operand resolver and writeback (40_operand_resolver.md R80 to R98): one function for each mode. -/

namespace Sys2Proof.Machine

/-- Where writeback through a phrase goes: the register of mode 0, or the effective address of modes 1 to 7 (R80, R93). -/
inductive Place where
  | register (r : Reg)
  | memory (ea : Word)
  deriving DecidableEq, Repr

/-- The operand phrase (10_state.md R33, 40_operand_resolver.md R80). Of the spec's tuple {mode, reg, ea, value} later rules
read the value and, in writeback, either the register or the effective address: that is `place`. -/
structure Phrase where
  place : Place
  value : Word
  deriving DecidableEq, Repr

/-- The last access of every memory mode: the operand's value is read at its effective address. -/
def operandAt (ea : Word) (s : State) : Access Phrase :=
  (dataRead ea s).andThen fun v t => .ok ⟨.memory ea, v⟩ t

/-- Mode 0 (R81). -/
def resolveRegister (r : Reg) (s : State) : Access Phrase := .ok ⟨.register r, s.reg r⟩ s

/-- Mode 1 (R82); R7 is no special case (R95). -/
def resolveIndirect (r : Reg) (s : State) : Access Phrase := operandAt (s.reg r) s

/-- Mode 2 on a register other than R7 (R83): the register steps after the read. -/
def resolveAutoInc (r : Reg) (s : State) : Access Phrase :=
  (operandAt (s.reg r) s).andThen fun p t => .ok p (t.setReg r (t.reg r + wordStep))

/-- Mode 2 on R7, immediate (R84): the value is the next instruction word, its effective address where that word stands
(the spec's decision D11). A fetch, no data read. -/
def resolveImmediate (s : State) : Access Phrase :=
  (fetchWord s).andThen fun v t => .ok ⟨.memory s.pc, v⟩ t

/-- Mode 3 on a register other than R7 (R85): the register steps between the two reads. -/
def resolveAutoIncDeferred (r : Reg) (s : State) : Access Phrase :=
  (dataRead (s.reg r) s).andThen fun ea t => operandAt ea (t.setReg r (t.reg r + wordStep))

/-- Mode 3 on R7, absolute (R86). -/
def resolveAbsolute (s : State) : Access Phrase :=
  (fetchWord s).andThen fun ea t => operandAt ea t

/-- The register steps back one word (R87, R88; the spec's decision D1). -/
def stepBack (r : Reg) (s : State) : State := s.setReg r (s.reg r - wordStep)

/-- Mode 4 (R87); R7 is no special case (R95). -/
def resolveAutoDec (r : Reg) (s : State) : Access Phrase :=
  operandAt ((stepBack r s).reg r) (stepBack r s)

/-- Mode 5 (R88); R7 is no special case (R95). -/
def resolveAutoDecDeferred (r : Reg) (s : State) : Access Phrase :=
  (dataRead ((stepBack r s).reg r) (stepBack r s)).andThen fun ea t => operandAt ea t

/-- Mode 6 (R89): the index word is fetched, then the register is added. On R7 that is the PC already advanced past the index
word, relative addressing (R90; the spec's decision D8). -/
def resolveIndex (r : Reg) (s : State) : Access Phrase :=
  (fetchWord s).andThen fun x t => operandAt (x + t.reg r) t

/-- Mode 7 (R91), and on R7 relative deferred (R92). -/
def resolveIndexDeferred (r : Reg) (s : State) : Access Phrase :=
  (fetchWord s).andThen fun x t => (dataRead (x + t.reg r) t).andThen fun ea u => operandAt ea u

/-- `resolve(m, r)` (R80), the table of 30_encoding.md R66. -/
def resolve (o : Operand) (s : State) : Access Phrase :=
  match o.mode with
  | .register => resolveRegister o.reg s
  | .indirect => resolveIndirect o.reg s
  | .autoInc => if o.reg = pcReg then resolveImmediate s else resolveAutoInc o.reg s
  | .autoIncDeferred => if o.reg = pcReg then resolveAbsolute s else resolveAutoIncDeferred o.reg s
  | .autoDec => resolveAutoDec o.reg s
  | .autoDecDeferred => resolveAutoDecDeferred o.reg s
  | .index => resolveIndex o.reg s
  | .indexDeferred => resolveIndexDeferred o.reg s

/-- Writeback, `update(P, v)` (R93): the mode is not run again. The check of the store is kept, though it cannot fail
after `resolve` (log 8). -/
def update (p : Phrase) (v : Word) (s : State) : Access Unit :=
  match p.place with
  | .register r => .ok () (s.setReg r v)
  | .memory ea => dataWrite ea v s

/-- The common operand handling of MOV, CMP, ADD and SUB: the source wholly, then the destination wholly
(R94, 42_double_operand.md R120). -/
def resolvePair (src dst : Operand) (s : State) : Access (Phrase × Phrase) :=
  (resolve src s).andThen fun p t => (resolve dst t).andThen fun q u => .ok (p, q) u

end Sys2Proof.Machine
end

