-- ==== Sys2Proof/Machine/DoubleOperand.lean ====
section
/-! DEFINITION. MOV, CMP, ADD, SUB (42_double_operand.md). -/

namespace Sys2Proof.Machine

/-- Write the result back, then replace the four flags together (41_decoder_and_loop.md R106). -/
def writeResult (p : Phrase) (res : Word) (f : Flags) (s : State) : Access Unit :=
  (update p res s).andThen fun _ t => .ok () (t.setFlags f)

/-- MOV (R121): dst := src. -/
def execMov (src dst : Operand) (s : State) : Host.Outcome State Fault Refusal :=
  finish <| (resolvePair src dst s).andThen fun pq t => writeResult pq.2 pq.1.value (moveFlags pq.1.value) t

/-- CMP (R122): the flags of dst - src; nothing is written back. -/
def execCmp (src dst : Operand) (s : State) : Host.Outcome State Fault Refusal :=
  finish <| (resolvePair src dst s).andThen fun pq t =>
    .ok () (t.setFlags (subFlags pq.2.value pq.1.value (pq.2.value - pq.1.value)))

/-- ADD (R123): dst := dst + src, truncated to 16 bits. -/
def execAdd (src dst : Operand) (s : State) : Host.Outcome State Fault Refusal :=
  finish <| (resolvePair src dst s).andThen fun pq t =>
    writeResult pq.2 (pq.2.value + pq.1.value) (addFlags pq.2.value pq.1.value (pq.2.value + pq.1.value)) t

/-- SUB (R124): dst := dst - src, truncated to 16 bits. -/
def execSub (src dst : Operand) (s : State) : Host.Outcome State Fault Refusal :=
  finish <| (resolvePair src dst s).andThen fun pq t =>
    writeResult pq.2 (pq.2.value - pq.1.value) (subFlags pq.2.value pq.1.value (pq.2.value - pq.1.value)) t

end Sys2Proof.Machine
end

