-- ==== Sys2Proof/Machine/Halt.lean ====
section
/-! DEFINITION. HALT (45_halt.md R150). -/

namespace Sys2Proof.Machine

/-- HALT (R150): `status <- HALTED`, nothing else. -/
def execHalt (s : State) : Host.Outcome State Fault Refusal := .next (s.setStatus .halted)

end Sys2Proof.Machine
end

