-- ==== Sys2Proof/Machine/Shifts.lean ====
section
/-! DEFINITION. ASL, ASR (43_shifts.md): the operand is resolved once and written back through the same phrase (R132). -/

namespace Sys2Proof.Machine

/-- `(d * 2) mod 2^16` (R130). -/
def shiftLeft (d : Word) : Word := d <<< 1

/-- `(d >> 1) OR (d AND 0o100000)` (R131). -/
def shiftRight (d : Word) : Word := (d >>> 1) ||| (d &&& 0o100000#16)

/-- ASL (R130). -/
def execAsl (dst : Operand) (s : State) : Host.Outcome State Fault Refusal :=
  finish <| (resolve dst s).andThen fun p t =>
    writeResult p (shiftLeft p.value) (shiftLeftFlags p.value (shiftLeft p.value)) t

/-- ASR (R131). -/
def execAsr (dst : Operand) (s : State) : Host.Outcome State Fault Refusal :=
  finish <| (resolve dst s).andThen fun p t =>
    writeResult p (shiftRight p.value) (shiftRightFlags p.value (shiftRight p.value)) t

end Sys2Proof.Machine
end

