-- ==== Sys2Proof/Machine/Dispatch.lean ====
section
/-! DEFINITION. One handler for each instruction (41_decoder_and_loop.md R104). -/

namespace Sys2Proof.Machine

def exec (i : Instr) (s : State) : Host.Outcome State Fault Refusal :=
  match i with
  | .mov src dst => Sys2Proof.Machine.execMov src dst s
  | .cmp src dst => Sys2Proof.Machine.execCmp src dst s
  | .add src dst => Sys2Proof.Machine.execAdd src dst s
  | .sub src dst => Sys2Proof.Machine.execSub src dst s
  | .sob r off => Sys2Proof.Machine.execSob r off s
  | .br off => Sys2Proof.Machine.execBr off s
  | .bne off => Sys2Proof.Machine.execBne off s
  | .beq off => Sys2Proof.Machine.execBeq off s
  | .asr dst => Sys2Proof.Machine.execAsr dst s
  | .asl dst => Sys2Proof.Machine.execAsl dst s
  | .halt => Sys2Proof.Machine.execHalt s

end Sys2Proof.Machine
end

