-- ==== Sys2Proof/Machine/HostInterface.lean ====
section
/-! DEFINITION. What the host does before the first step and sees after the last (70_reset_and_hazards.md R200 to R206). -/

namespace Sys2Proof.Machine

/-- Place an image: its k-th word becomes word `k` counted from the given index (R203). -/
def Memory.placeImage (m : Memory) (k : Nat) : List Word → Memory
  | [] => m
  | w :: ws => Memory.placeImage (m.writeWord k w) (k + 1) ws

/-- Reset and load: the state before the first step of a run with MEM_WORDS = `memWords` and the given image (R200, R203).
A size out of range or an image longer than memory is a host error, refused at launch (R203; log 9). No counter is touched. -/
def launch (memWords : Nat) (image : List Word) : Host.Outcome State Fault Refusal :=
  if memWords < Config.minMemWords ∨ Config.maxMemWords < memWords then .refused .memorySizeOutOfRange
  else if memWords < image.length then .refused .imageTooLong
  else .next ((State.resetWith memWords).setMem (Memory.placeImage [] 0 image))

/-- What the host reads of a machine (R206): nothing of a run that has not ended; everything of a normal end; of a fatal one
the status only (60_exceptions.md R184; log 11). -/
inductive HostView where
  | notEnded
  | normalEnd (counters : Counters) (mem : Memory) (regs : Vector Word 8) (flags : Flags)
  | fatalEnd (kind : FaultKind) (info : Word)
  deriving DecidableEq, Repr

/-- The host's view of a state (R206). -/
def hostView (s : State) : HostView :=
  match s.status with
  | .running => .notEnded
  | .halted => .normalEnd s.counters s.mem s.regs s.flags
  | .fault kind info => .fatalEnd kind info

/-- The exit code the source expresses the status by: 0 on normal halt, 1 on any fatal condition; a run that never leaves RUN
has none (R206). -/
def exitCode : Status → Option Nat
  | .running => none
  | .halted => some 0
  | .fault _ _ => some 1

end Sys2Proof.Machine
end

