-- ==== Sys2Proof/Machine/Step.lean ====
section
/-! DEFINITION. One step of the core (41_decoder_and_loop.md R102). -/

namespace Sys2Proof.Machine

/-- Decode a fetched first word and run its handler; an invalid word is a decode fault (R102, R180). -/
def runFetched (w : Word) (s : State) : Host.Outcome State Fault Refusal :=
  match decodeWord w with
  | some i => retire (exec i s)
  | none => .next (raiseFault .decode w s)

/-- One step (R102). From a terminal status there is none (10_state.md R32; log 4). -/
def step (s : State) : Host.Outcome State Fault Refusal :=
  match s.status with
  | .halted => .fault .halted
  | .fault kind info => .fault (.faulted kind info)
  | .running =>
    match fetchWord s with
    | .ok w t => runFetched w t
    | .stopped t => .next t

/-- Store a word where an address names one, if it does. -/
def State.placeWord (s : State) (a v : Word) : State :=
  if s.inBounds a then s.setMem (s.mem.writeWord (wordIndex a) v) else s

/-- `s` with the instruction of bits `w` at the PC, so that the next step fetches and runs it: its words, up to the longest
instruction, at PC, PC + 2 and PC + 4, and the status RUN, without which there is no fetch (log 10). -/
def State.withFetchWord (s : State) (nbits w : Nat) : State :=
  (((s.placeWord (s.pc + 4#16) (tableWord nbits w 2)).placeWord (s.pc + 2#16) (tableWord nbits w 1)).placeWord s.pc
    (tableWord nbits w 0)).setStatus .running

end Sys2Proof.Machine
end

