-- ==== Sys2Proof/Safety.lean ====
section
/-! DEFINITION. The terms claims are stated in: a run without a fault, the machine's invariant, when an operand can be read,
where an instruction stores, what it leaves unchanged. -/

namespace Sys2Proof.Machine

/-- No fatal condition has been met (60_exceptions.md R182). -/
def State.faultFree (s : State) : Prop := s.status.isFault = false

/-! ### The invariant every step keeps -/

/-- MEM_WORDS is from 1 to 32768 (20_memory.md R48). -/
def State.sizeLegal (s : State) : Prop := Config.minMemWords ≤ s.memWords ∧ s.memWords ≤ Config.maxMemWords

/-- Every listed cell lies in the memory of MEM_WORDS words (20_memory.md R40, R52). -/
def State.memInside (s : State) : Prop := ∀ c ∈ s.mem, c.1 < 2 * s.memWords

/-- A recorded fault is true of the machine: a DECODE word is invalid, a BOUNDS address is outside memory
(60_exceptions.md R180, R181). -/
def State.faultIsTrue (s : State) : Prop :=
  match s.status with
  | .fault .decode w => decodeWord w = none
  | .fault .bounds a => ¬ s.inBounds a
  | .running => True
  | .halted => True

/-- What the counters of any run satisfy: a taken branch was executed, an executed branch completed, an instruction stores at
most once, fetches 1 to 3 words and reads at most 4; the one instruction that may have faulted has completed at most 3 fetches
and 3 reads (10_state.md R31, 20_memory.md R51, 40_operand_resolver.md R96, 60_exceptions.md R184). -/
def State.countersFit (s : State) : Prop :=
  s.counters.taken ≤ s.counters.branch ∧ s.counters.branch ≤ s.counters.instr ∧ s.counters.write ≤ s.counters.instr ∧
  s.counters.instr ≤ s.counters.fetch ∧
  s.counters.fetch ≤ 3 * s.counters.instr + (if s.status.isFault then 3 else 0) ∧
  s.counters.read ≤ 4 * s.counters.instr + (if s.status.isFault then 3 else 0)

/-- The invariant of the machine. -/
structure State.Inv (s : State) : Prop where
  /-- the memory keeps its canonical form (log 2) -/
  memCanonical : s.mem.wf
  memInside : s.memInside
  sizeLegal : s.sizeLegal
  /-- "N and Z are never both 1" (46_condition_codes.md R160) -/
  notNegativeZero : ¬ (s.flags.n = true ∧ s.flags.z = true)
  faultIsTrue : s.faultIsTrue
  countersFit : s.countersFit

/-! ### Operands -/

/-- The register an index mode adds: on R7 the PC past the index word (40_operand_resolver.md R89, R90). -/
def State.indexBase (s : State) (r : Reg) : Word := if r = pcReg then s.pc + wordStep else s.reg r

end Sys2Proof.Machine

namespace Sys2Proof

open Sys2Proof.Machine

/-- The registers an operand's mode steps: its own, in modes 2 to 5 (40_operand_resolver.md R96). On R7 modes 2 and 3 step it
too, by the fetch of the extension word. -/
def Operand.steps (o : Operand) (q : Reg) : Prop :=
  o.reg = q ∧ (o.mode = .autoInc ∨ o.mode = .autoIncDeferred ∨ o.mode = .autoDec ∨ o.mode = .autoDecDeferred)

/-- The data words resolving an operand reads (40_operand_resolver.md R96). -/
def Operand.dataReads (o : Operand) : Nat :=
  match o.mode with
  | .register => 0
  | .indirect => 1
  | .autoInc => if o.reg = pcReg then 0 else 1
  | .autoIncDeferred => if o.reg = pcReg then 1 else 2
  | .autoDec => 1
  | .autoDecDeferred => 2
  | .index => 1
  | .indexDeferred => 2

/-- Every address resolving the operand uses lies in memory, told from the state before it, mode by mode
(40_operand_resolver.md R81 to R92, R98). -/
def Operand.readable (o : Operand) (s : State) : Prop :=
  match o.mode with
  | .register => True
  | .indirect => s.inBounds (s.reg o.reg)
  | .autoInc => s.inBounds (s.reg o.reg)
  | .autoIncDeferred => s.inBounds (s.reg o.reg) ∧ s.inBounds (s.wordAt (s.reg o.reg))
  | .autoDec => s.inBounds (s.reg o.reg - wordStep)
  | .autoDecDeferred =>
    s.inBounds (s.reg o.reg - wordStep) ∧ s.inBounds (s.wordAt (s.reg o.reg - wordStep))
  | .index => s.inBounds s.pc ∧ s.inBounds (s.wordAt s.pc + s.indexBase o.reg)
  | .indexDeferred =>
    s.inBounds s.pc ∧ s.inBounds (s.wordAt s.pc + s.indexBase o.reg) ∧
    s.inBounds (s.wordAt (s.wordAt s.pc + s.indexBase o.reg))

end Sys2Proof

namespace Sys2Proof.Machine

/-- The state resolving an operand leaves, whether it ends well or a fault stops it. -/
def stateAfter (o : Operand) (s : State) : State :=
  match resolve o s with
  | .ok _ t => t
  | .stopped t => t

/-- N is the sign bit of a result and Z says the result is zero, and they are not both 1 (46_condition_codes.md R160). -/
def Flags.signAndZeroOf (f : Flags) (res : Word) : Prop :=
  (f.n = true ↔ 2 ^ 15 ≤ res.toNat) ∧ (f.z = true ↔ res.toNat = 0) ∧ ¬ (f.n = true ∧ f.z = true)

/-! ### Where an instruction stores -/

/-- The effective address of a phrase, if it has one. -/
def Phrase.ea (p : Phrase) : Option Word :=
  match p.place with
  | .register _ => none
  | .memory ea => some ea

/-- The effective address of a lone operand, as the resolver computes it from the state the instruction starts in. -/
def lastEa (dst : Operand) (s : State) : Option Word :=
  match resolve dst s with
  | .ok p _ => p.ea
  | .stopped _ => none

/-- The effective address of a destination operand, as the resolver computes it after the source operand. -/
def pairEa (src dst : Operand) (s : State) : Option Word :=
  match resolve src s with
  | .ok _ t => lastEa dst t
  | .stopped _ => none

/-- The address an instruction stores to, computed by the resolver its meaning uses; `none` for one that stores nothing
(CMP, a register destination, a branch, HALT, or an operand that faulted) (40_operand_resolver.md R93). -/
def storeAddress (i : Instr) (s : State) : Option Word :=
  match i with
  | .mov src dst => pairEa src dst s
  | .add src dst => pairEa src dst s
  | .sub src dst => pairEa src dst s
  | .asr dst => lastEa dst s
  | .asl dst => lastEa dst s
  | .cmp _ _ => none
  | .sob _ _ => none
  | .br _ => none
  | .bne _ => none
  | .beq _ => none
  | .halt => none

/-- The byte addresses of the word an address names (log 2). -/
def inWord (a : Word) (k : Nat) : Prop := k = 2 * wordIndex a ∨ k = 2 * wordIndex a + 1

/-- Every byte of memory reads as before but for those of the word stored to, if there is one. -/
def sameBytesOutside (ea : Option Word) (s t : State) : Prop :=
  ∀ k, (∀ a, ea = some a → ¬ inWord a k) → t.mem.readByte k = s.mem.readByte k

/-- What writing a result back and setting the flags does to the state `u` in which the operands have been resolved: the
register of mode 0 or the word at the effective address holds `res`, the flags are `f`, a memory write is counted, and nothing
else changes (40_operand_resolver.md R93). -/
def writtenBack (p : Phrase) (res : Word) (f : Flags) (u t : State) : Prop :=
  t.flags = f ∧ t.status = u.status ∧ t.memWords = u.memWords ∧
  match p.place with
  | .register r =>
    t.reg r = res ∧ (∀ q, q ≠ r → t.reg q = u.reg q) ∧ (∀ k, t.mem.readByte k = u.mem.readByte k) ∧
    t.counters = u.counters
  | .memory ea =>
    t.wordAt ea = res ∧ (∀ q, t.reg q = u.reg q) ∧
    (∀ k, ¬ inWord ea k → t.mem.readByte k = u.mem.readByte k) ∧
    t.counters = { u.counters with write := u.counters.write + 1 }

end Sys2Proof.Machine
end

