-- ==== Sys2Proof/Certificates/Slice0/Obligations.lean ====
section
/-! DEFINITION. The statements for the provers. Each docstring names the rule of spec/ it formalises, or says what it rests on. -/

open Sys2Proof
open Sys2Proof.Machine

/-! ### Encoding -/

/-- Decoding an encoded well-formed instruction gives it back: no operand bit is lost (30_encoding.md, formats and opcode map;
the numerals are the spec's own decision D4, the SOB field order D5, log 6). -/
def Obligations.DecodeOfEncodeIsTheInstruction : Prop :=
  ∀ i : Instr, i.wellFormed = true → decodeWord (encode i) = some i

/-- Every word that decodes is the encoding of the well-formed instruction it decodes to: each bit of a valid word is used
(30_encoding.md; D4, D5, log 6). -/
def Obligations.EncodeOfDecodeIsTheWord : Prop :=
  ∀ (w : Word) (i : Instr), decodeWord w = some i → i.wellFormed = true ∧ encode i = w

/-- The opcode cascade and the masked-match table name the same instruction for every word (30_encoding.md, disjointness:
"the cascade is equivalent to a single masked-match table"; on the numerals of D4, log 6). -/
def Obligations.CascadeAgreesWithMaskedMatchTable : Prop :=
  ∀ w : Word, (decodeWord w).map Instr.mnemonic = (opcodeMap.find? fun row => row.selects w).map OpcodeRow.mnemonic

/-- No word satisfies two of the eleven patterns (30_encoding.md, disjointness; D4, log 6). -/
def Obligations.OpcodePatternsAreDisjoint : Prop :=
  ∀ (w : Word) (p q : OpcodeRow), p ∈ opcodeMap → q ∈ opcodeMap → p.selects w = true → q.selects w = true → p = q

/-- The invalid first words are exactly the seven ranges (30_encoding.md, invalid encodings; D4, log 6). -/
def Obligations.InvalidWordsAreTheSevenRanges : Prop :=
  ∀ w : Word, decodeWord w = none ↔
    (0x0001 ≤ w.toNat ∧ w.toNat ≤ 0x00FF) ∨ (0x0400 ≤ w.toNat ∧ w.toNat ≤ 0x0C7F) ∨
    (0x0D00 ≤ w.toNat ∧ w.toNat ≤ 0x0FFF) ∨ (0x3000 ≤ w.toNat ∧ w.toNat ≤ 0x5FFF) ∨
    (0x7000 ≤ w.toNat ∧ w.toNat ≤ 0x7DFF) ∨ (0x8000 ≤ w.toNat ∧ w.toNat ≤ 0xDFFF) ∨
    (0xF000 ≤ w.toNat ∧ w.toNat ≤ 0xFFFF)

/-- Words written out bit by bit from the formats decode to their instructions, one for each family
(30_encoding.md, formats; D4, D5, log 6). -/
def Obligations.WrittenOutWordsDecode : Prop :=
  decodeWord 0b0001110001111010#16 = some (.mov ⟨.index, 1⟩ ⟨.indexDeferred, 2⟩) ∧
  decodeWord 0b1110100110000101#16 = some (.sub ⟨.autoDec, 6⟩ ⟨.register, 5⟩) ∧
  decodeWord 0b0000110011011111#16 = some (.asl ⟨.autoIncDeferred, 7⟩) ∧
  decodeWord 0b0000001011111110#16 = some (.bne (-2)) ∧
  decodeWord 0b0111111011000101#16 = some (.sob 3 5) ∧
  decodeWord 0b0000000000000000#16 = some .halt

/-! ### The step -/

/-- A step at a word that decodes runs that instruction, in the state with the PC past the word and the fetch counted, and
counts the instruction unless a fault ended it (41_decoder_and_loop.md, the step; the moment of the PC's advance and of the
count are the spec's decisions D7 and D17, log 12). -/
def Obligations.StepRunsTheDecodedInstruction : Prop :=
  ∀ (s : State) (i : Instr), s.status = .running → s.inBounds s.pc → decodeWord (s.wordAt s.pc) = some i →
    ∃ u t : State,
      (u.pc = s.pc + 2#16 ∧ (∀ q, q ≠ pcReg → u.reg q = s.reg q) ∧ u.flags = s.flags ∧ u.status = .running ∧
        u.counters = { s.counters with fetch := s.counters.fetch + 1 } ∧ u.mem = s.mem ∧ u.memWords = s.memWords) ∧
      exec i u = .next t ∧
      step s = .next (if t.status.isFault then t
        else t.setCounters { t.counters with instr := t.counters.instr + 1 })

/-- R180. A first word that matches no tier leaves FAULT(DECODE, W), the word counted as fetched and the PC past it, nothing
else changed, `n_instr` with it; and a decode fault is recorded only of the first word at the PC. -/
def Obligations.InvalidWordRaisesDecodeFault : Prop :=
  (∀ s : State, s.status = .running → s.inBounds s.pc → decodeWord (s.wordAt s.pc) = none →
    ∃ t, step s = .next t ∧ t.status = .fault .decode (s.wordAt s.pc) ∧ t.pc = s.pc + 2#16 ∧
      (∀ q, q ≠ pcReg → t.reg q = s.reg q) ∧ t.flags = s.flags ∧
      t.counters = { s.counters with fetch := s.counters.fetch + 1 } ∧ t.mem = s.mem ∧ t.memWords = s.memWords) ∧
  (∀ (s t : State) (w : Word), step s = .next t → t.status = .fault .decode w →
    s.inBounds s.pc ∧ w = s.wordAt s.pc ∧ decodeWord w = none)

/-- A PC outside memory stops the step at the fetch, before anything is decoded, with nothing else changed
(20_memory.md, FetchWord; 60_exceptions.md, bounds fault; the spec's decisions D18 and D19, log 12). -/
def Obligations.PcOutsideMemoryRaisesBoundsFault : Prop :=
  ∀ s : State, s.status = .running → ¬ s.inBounds s.pc → step s = .next { s with status := .fault .bounds s.pc }

/-- A recorded bounds fault names an address outside memory, and the instruction is not counted (60_exceptions.md, bounds fault
and state at a fault; the spec's decision D18, log 3). -/
def Obligations.RecordedBoundsFaultIsOutsideMemory : Prop :=
  ∀ (s t : State) (a : Word), step s = .next t → t.status = .fault .bounds a →
    ¬ s.inBounds a ∧ t.counters.instr = s.counters.instr ∧ t.counters.write = s.counters.write ∧
    t.mem = s.mem ∧ t.flags = s.flags

/-- The machine has a next state exactly while its status is RUN, and no step is refused; the two terminal statuses have no
step (10_state.md, run status). How a missing step is answered is the model's choice (log 3, log 4). -/
def Obligations.MachineStepsExactlyWhileRunning : Prop :=
  ∀ s : State, ((∃ t, step s = .next t) ↔ s.status = .running) ∧
    (s.status = .halted → step s = .fault .halted) ∧
    (∀ kind info, s.status = .fault kind info → step s = .fault (.faulted kind info))

/-- Every step keeps the machine's invariant: canonical memory inside MEM_WORDS words, a legal size, N and Z not both set, a
recorded fault that is true, counters that fit (the bounds are those of 20_memory.md section 2 and 40_operand_resolver.md
section 4; the canonical form is the model's, log 2; the counting rules are D17, log 12). -/
def Obligations.StepKeepsTheInvariant : Prop :=
  ∀ s t : State, s.Inv → step s = .next t → t.Inv

/-- Reset meets the invariant, whatever the size of memory (70_reset_and_hazards.md section 1; log 1, log 5). -/
def Obligations.ResetMeetsTheInvariant : Prop :=
  (∀ n, 1 ≤ n → n ≤ 32768 → (State.resetWith n).Inv) ∧ State.reset.Inv

/-- A launched machine meets the invariant (70_reset_and_hazards.md section 2; log 9). -/
def Obligations.LaunchedMachineMeetsTheInvariant : Prop :=
  ∀ (n : Nat) (image : List Word) (s : State), launch n image = .next s → s.Inv

/-- The counters are "monotonically increasing": no step lowers one, and a step that leaves a running or halted machine counts
exactly one instruction (10_state.md section 5; D16 and D17, log 12). -/
def Obligations.CountersNeverDecrease : Prop :=
  ∀ s t : State, step s = .next t →
    s.counters.fetch ≤ t.counters.fetch ∧ s.counters.read ≤ t.counters.read ∧ s.counters.write ≤ t.counters.write ∧
    s.counters.branch ≤ t.counters.branch ∧ s.counters.taken ≤ t.counters.taken ∧
    t.counters.instr = s.counters.instr + (if t.status.isFault then 0 else 1)

/-- MEM_WORDS "does not change during a run" (20_memory.md section 1; that it stands in the state is the model's, log 1). -/
def Obligations.StepKeepsTheMemorySize : Prop :=
  ∀ s t : State, step s = .next t → t.memWords = s.memWords

/-- No instruction reads a counter: two machines that differ in their counters alone step to machines that differ in their
counters alone, each counter having moved by the same amount (10_state.md section 5). -/
def Obligations.CountersInfluenceNothing : Prop :=
  ∀ (s t : State) (k : Counters), step s = .next t →
    ∃ j, step (s.setCounters k) = .next (t.setCounters j) ∧
      j.instr + s.counters.instr = k.instr + t.counters.instr ∧ j.fetch + s.counters.fetch = k.fetch + t.counters.fetch ∧
      j.read + s.counters.read = k.read + t.counters.read ∧ j.write + s.counters.write = k.write + t.counters.write ∧
      j.branch + s.counters.branch = k.branch + t.counters.branch ∧ j.taken + s.counters.taken = k.taken + t.counters.taken

/-- "Nothing reads N, V or C": two machines that agree but for N, V and C step to machines that agree but for N, V and C, and
agree on those too unless the step left the flags as they were (10_state.md section 3). -/
def Obligations.SignOverflowCarryInfluenceNothing : Prop :=
  ∀ (s t : State) (f : Flags), f.z = s.flags.z → step s = .next t →
    ∃ g, step (s.setFlags f) = .next (t.setFlags g) ∧ (g = t.flags ∨ (g = f ∧ t.flags = s.flags))

/-- With MEM_WORDS = 32768 no step records a bounds fault (20_memory.md section 1; the parameter is D3, log 1). -/
def Obligations.FullMemoryRaisesNoBoundsFault : Prop :=
  ∀ (s t : State) (a : Word), s.memWords = 32768 → step s = .next t → t.status ≠ .fault .bounds a

/-! ### Memory -/

/-- R42, R45, R46. A read is checked and pure; a data read and a data write count themselves, and only when they succeed. -/
def Obligations.AccessesAreCheckedAndCounted : Prop :=
  ∀ (s : State) (a v : Word),
    (s.inBounds a → memRead a s = .ok (s.mem.readWord (wordIndex a)) s ∧
      dataRead a s = .ok (s.mem.readWord (wordIndex a)) { s with counters.read := s.counters.read + 1 } ∧
      ∃ t, memWrite a v s = .ok () t ∧ dataWrite a v s = .ok () { t with counters.write := s.counters.write + 1 } ∧
        t.counters = s.counters) ∧
    (¬ s.inBounds a → memRead a s = .stopped { s with status := .fault .bounds a } ∧
      dataRead a s = .stopped { s with status := .fault .bounds a } ∧
      dataWrite a v s = .stopped { s with status := .fault .bounds a })

/-- R43. A write replaces the whole word and nothing else: every byte outside it, and every other word, reads as before; a
faulting write changes nothing but the status that records it. -/
def Obligations.MemWriteReplacesOneWord : Prop :=
  ∀ (s : State) (a v : Word),
    (s.inBounds a → ∃ t, memWrite a v s = .ok () t ∧ t.wordAt a = v ∧
      (∀ b, wordIndex b ≠ wordIndex a → t.wordAt b = s.wordAt b) ∧
      (∀ k, ¬ inWord a k → t.mem.readByte k = s.mem.readByte k) ∧
      (∀ q, t.reg q = s.reg q) ∧ t.flags = s.flags ∧ t.counters = s.counters ∧ t.status = s.status ∧
      t.memWords = s.memWords) ∧
    (¬ s.inBounds a → memWrite a v s = .stopped { s with status := .fault .bounds a })

/-- An instruction-word fetch reads the word at the PC, counts itself and advances the PC by 2, modulo 2^16; one that faults
changes nothing but the status (20_memory.md, FetchWord; the spec's decisions D7 and D19, log 12). -/
def Obligations.FetchAdvancesThePcAndCounts : Prop :=
  ∀ s : State,
    (s.inBounds s.pc → ∃ t, fetchWord s = .ok (s.wordAt s.pc) t ∧ t.pc.toNat = (s.pc.toNat + 2) % 65536 ∧
      (∀ q, q ≠ pcReg → t.reg q = s.reg q) ∧ t.flags = s.flags ∧ t.mem = s.mem ∧ t.memWords = s.memWords ∧
      t.status = s.status ∧ t.counters = { s.counters with fetch := s.counters.fetch + 1 }) ∧
    (¬ s.inBounds s.pc → fetchWord s = .stopped { s with status := .fault .bounds s.pc })

/-- Bit 0 of an address is ignored: 2k and 2k+1 name word k, each is in bounds exactly when k is below MEM_WORDS, and both read
the same word (20_memory.md section 1; the spec's decision D2, log 12). -/
def Obligations.OddAddressNamesTheSameWord : Prop :=
  ∀ (s : State) (k : Nat), k < 32768 →
    wordIndex (BitVec.ofNat 16 (2 * k)) = k ∧ wordIndex (BitVec.ofNat 16 (2 * k + 1)) = k ∧
    (s.inBounds (BitVec.ofNat 16 (2 * k)) ↔ k < s.memWords) ∧
    (s.inBounds (BitVec.ofNat 16 (2 * k + 1)) ↔ k < s.memWords) ∧
    s.wordAt (BitVec.ofNat 16 (2 * k + 1)) = s.wordAt (BitVec.ofNat 16 (2 * k))

/-- Canonical memories that read alike are the same data (the model's form of memory, log 2; 20_memory.md section 1). -/
def Obligations.CanonicalMemoriesThatReadAlikeAreEqual : Prop :=
  ∀ m n : Memory, m.wf → n.wf → (∀ k, m.readByte k = n.readByte k) → m = n

/-- A store is seen by the fetch that follows it, with nothing between (20_memory.md section 4, instruction-fetch coherence). -/
def Obligations.StoreIsSeenByTheNextFetch : Prop :=
  ∀ (s t : State) (a v : Word), dataWrite a v s = .ok () t → wordIndex s.pc = wordIndex a →
    ∃ u, fetchWord t = .ok v u

/-! ### The operand resolver -/

/-- R81, R82. Modes 0 and 1 on every register, R7 among them. -/
def Obligations.RegisterAndIndirectModes : Prop :=
  ∀ (s : State) (r : Reg),
    resolve ⟨.register, r⟩ s = .ok ⟨.register r, s.reg r⟩ s ∧
    (s.inBounds (s.reg r) → resolve ⟨.indirect, r⟩ s =
      .ok ⟨.memory (s.reg r), s.wordAt (s.reg r)⟩ { s with counters.read := s.counters.read + 1 }) ∧
    (¬ s.inBounds (s.reg r) → resolve ⟨.indirect, r⟩ s = .stopped { s with status := .fault .bounds (s.reg r) })

/-- Modes 2 and 3 on a register other than R7 (40_operand_resolver.md section 2; that a word is 2 in address units is the spec's
decision D1, log 12): the register steps by 2 after the read of mode 2, between the reads of
mode 3; a fault at the first read finds it unchanged, one at the second finds it stepped. -/
def Obligations.AutoincrementModes : Prop :=
  ∀ (s : State) (r : Reg), r ≠ pcReg →
    (s.inBounds (s.reg r) → resolve ⟨.autoInc, r⟩ s =
      .ok ⟨.memory (s.reg r), s.wordAt (s.reg r)⟩
        ((s.setReg r (s.reg r + 2#16)).setCounters { s.counters with read := s.counters.read + 1 })) ∧
    (¬ s.inBounds (s.reg r) → resolve ⟨.autoInc, r⟩ s = .stopped { s with status := .fault .bounds (s.reg r) }) ∧
    (s.inBounds (s.reg r) → s.inBounds (s.wordAt (s.reg r)) → resolve ⟨.autoIncDeferred, r⟩ s =
      .ok ⟨.memory (s.wordAt (s.reg r)), s.wordAt (s.wordAt (s.reg r))⟩
        ((s.setReg r (s.reg r + 2#16)).setCounters { s.counters with read := s.counters.read + 2 })) ∧
    (s.inBounds (s.reg r) → ¬ s.inBounds (s.wordAt (s.reg r)) → resolve ⟨.autoIncDeferred, r⟩ s =
      .stopped (((s.setReg r (s.reg r + 2#16)).setCounters { s.counters with read := s.counters.read + 1 }).setStatus
        (.fault .bounds (s.wordAt (s.reg r))))) ∧
    (¬ s.inBounds (s.reg r) → resolve ⟨.autoIncDeferred, r⟩ s = .stopped { s with status := .fault .bounds (s.reg r) })

/-- Modes 2 and 3 on R7, immediate and absolute: one extension word is fetched, not read as data; immediate reads no data and its
effective address is where the word stands, absolute reads one word (40_operand_resolver.md section 2; the effective address of
an immediate is the spec's decision D11, log 12). -/
def Obligations.ImmediateAndAbsoluteModes : Prop :=
  ∀ s : State,
    (s.inBounds s.pc → resolve ⟨.autoInc, pcReg⟩ s =
      .ok ⟨.memory s.pc, s.wordAt s.pc⟩
        ((s.setPc (s.pc + 2#16)).setCounters { s.counters with fetch := s.counters.fetch + 1 })) ∧
    (s.inBounds s.pc → s.inBounds (s.wordAt s.pc) → resolve ⟨.autoIncDeferred, pcReg⟩ s =
      .ok ⟨.memory (s.wordAt s.pc), s.wordAt (s.wordAt s.pc)⟩
        ((s.setPc (s.pc + 2#16)).setCounters
          { s.counters with fetch := s.counters.fetch + 1, read := s.counters.read + 1 })) ∧
    (s.inBounds s.pc → ¬ s.inBounds (s.wordAt s.pc) → resolve ⟨.autoIncDeferred, pcReg⟩ s =
      .stopped (((s.setPc (s.pc + 2#16)).setCounters { s.counters with fetch := s.counters.fetch + 1 }).setStatus
        (.fault .bounds (s.wordAt s.pc)))) ∧
    (¬ s.inBounds s.pc →
      resolve ⟨.autoInc, pcReg⟩ s = .stopped { s with status := .fault .bounds s.pc } ∧
      resolve ⟨.autoIncDeferred, pcReg⟩ s = .stopped { s with status := .fault .bounds s.pc })

/-- Modes 4 and 5 on every register, R7 among them: the register steps back by 2 before the first read, and stays so if a read
faults (40_operand_resolver.md section 2; the step is the spec's decision D1, log 12). -/
def Obligations.AutodecrementModes : Prop :=
  ∀ (s : State) (r : Reg),
    (s.inBounds (s.reg r - 2#16) → resolve ⟨.autoDec, r⟩ s =
      .ok ⟨.memory (s.reg r - 2#16), s.wordAt (s.reg r - 2#16)⟩
        ((s.setReg r (s.reg r - 2#16)).setCounters { s.counters with read := s.counters.read + 1 })) ∧
    (s.inBounds (s.reg r - 2#16) → s.inBounds (s.wordAt (s.reg r - 2#16)) → resolve ⟨.autoDecDeferred, r⟩ s =
      .ok ⟨.memory (s.wordAt (s.reg r - 2#16)), s.wordAt (s.wordAt (s.reg r - 2#16))⟩
        ((s.setReg r (s.reg r - 2#16)).setCounters { s.counters with read := s.counters.read + 2 })) ∧
    (s.inBounds (s.reg r - 2#16) → ¬ s.inBounds (s.wordAt (s.reg r - 2#16)) → resolve ⟨.autoDecDeferred, r⟩ s =
      .stopped (((s.setReg r (s.reg r - 2#16)).setCounters { s.counters with read := s.counters.read + 1 }).setStatus
        (.fault .bounds (s.wordAt (s.reg r - 2#16))))) ∧
    (¬ s.inBounds (s.reg r - 2#16) →
      resolve ⟨.autoDec, r⟩ s =
        .stopped ((s.setReg r (s.reg r - 2#16)).setStatus (.fault .bounds (s.reg r - 2#16))) ∧
      resolve ⟨.autoDecDeferred, r⟩ s =
        .stopped ((s.setReg r (s.reg r - 2#16)).setStatus (.fault .bounds (s.reg r - 2#16))))

/-- Modes 6 and 7 on a register other than R7 (40_operand_resolver.md section 2; the moment of the PC's advance is the spec's
decision D7, log 12): the index word is fetched, the sum taken modulo 2^16; each fault leaves
what stood before it. -/
def Obligations.IndexModes : Prop :=
  ∀ (s : State) (r : Reg), r ≠ pcReg →
    let f := (s.setPc (s.pc + 2#16)).setCounters { s.counters with fetch := s.counters.fetch + 1 }
    let a := s.wordAt s.pc + s.reg r
    (s.inBounds s.pc → s.inBounds a → resolve ⟨.index, r⟩ s =
      .ok ⟨.memory a, s.wordAt a⟩ { f with counters.read := s.counters.read + 1 }) ∧
    (s.inBounds s.pc → ¬ s.inBounds a → resolve ⟨.index, r⟩ s = .stopped (f.setStatus (.fault .bounds a)) ∧
      resolve ⟨.indexDeferred, r⟩ s = .stopped (f.setStatus (.fault .bounds a))) ∧
    (s.inBounds s.pc → s.inBounds a → s.inBounds (s.wordAt a) → resolve ⟨.indexDeferred, r⟩ s =
      .ok ⟨.memory (s.wordAt a), s.wordAt (s.wordAt a)⟩ { f with counters.read := s.counters.read + 2 }) ∧
    (s.inBounds s.pc → s.inBounds a → ¬ s.inBounds (s.wordAt a) → resolve ⟨.indexDeferred, r⟩ s =
      .stopped ({ f with counters.read := s.counters.read + 1, status := .fault .bounds (s.wordAt a) })) ∧
    (¬ s.inBounds s.pc → resolve ⟨.index, r⟩ s = .stopped { s with status := .fault .bounds s.pc } ∧
      resolve ⟨.indexDeferred, r⟩ s = .stopped { s with status := .fault .bounds s.pc })

/-- Modes 6 and 7 on R7, relative and relative deferred: the PC added is the one past the index word; each fault, that of
the index word's fetch too, leaves what stood before it (40_operand_resolver.md section 2; the PC's advance and the PC added are the spec's decisions D7 and D8,
log 12). -/
def Obligations.RelativeModes : Prop :=
  ∀ s : State,
    let f := (s.setPc (s.pc + 2#16)).setCounters { s.counters with fetch := s.counters.fetch + 1 }
    let a := s.wordAt s.pc + (s.pc + 2#16)
    (s.inBounds s.pc → s.inBounds a → resolve ⟨.index, pcReg⟩ s =
      .ok ⟨.memory a, s.wordAt a⟩ { f with counters.read := s.counters.read + 1 }) ∧
    (s.inBounds s.pc → ¬ s.inBounds a → resolve ⟨.index, pcReg⟩ s = .stopped (f.setStatus (.fault .bounds a)) ∧
      resolve ⟨.indexDeferred, pcReg⟩ s = .stopped (f.setStatus (.fault .bounds a))) ∧
    (s.inBounds s.pc → s.inBounds a → s.inBounds (s.wordAt a) → resolve ⟨.indexDeferred, pcReg⟩ s =
      .ok ⟨.memory (s.wordAt a), s.wordAt (s.wordAt a)⟩ { f with counters.read := s.counters.read + 2 }) ∧
    (s.inBounds s.pc → s.inBounds a → ¬ s.inBounds (s.wordAt a) → resolve ⟨.indexDeferred, pcReg⟩ s =
      .stopped ({ f with counters.read := s.counters.read + 1, status := .fault .bounds (s.wordAt a) })) ∧
    (¬ s.inBounds s.pc → resolve ⟨.index, pcReg⟩ s = .stopped { s with status := .fault .bounds s.pc } ∧
      resolve ⟨.indexDeferred, pcReg⟩ s = .stopped { s with status := .fault .bounds s.pc })

/-- An operand resolves exactly when every address its mode uses lies in memory, told from the state before it
(40_operand_resolver.md section 4, validation before use; on the spec's decisions D1, D7, D8, log 12). -/
def Obligations.OperandResolvesExactlyWhenReadable : Prop :=
  ∀ (o : Operand) (s : State), (∃ p t, resolve o s = .ok p t) ↔ o.readable s

/-- The fetches and data reads of an operand are those of the table of totals, whatever it addresses
(40_operand_resolver.md section 4, totals per operand; D17, log 12). -/
def Obligations.ResolveCountsAsTheTableSays : Prop :=
  ∀ (o : Operand) (s t : State) (p : Phrase), resolve o s = .ok p t →
    t.counters = { s.counters with
      fetch := s.counters.fetch + o.extensionWords, read := s.counters.read + o.dataReads }

/-- R93. Writeback through a resolved phrase: mode 0 writes the register, modes 1 to 7 store at the effective address found
when the operand was resolved and count a data write; nothing else changes, and the store's check always passes, also in a
state another operand's resolution has changed since. -/
def Obligations.WritebackGoesToTheResolvedPlace : Prop :=
  ∀ (o : Operand) (s t u : State) (p : Phrase) (v : Word), resolve o s = .ok p t → u.memWords = t.memWords →
    (o.mode = .register ↔ p.place = .register o.reg) ∧
    (o.mode = .register → update p v u = .ok () (u.setReg o.reg v)) ∧
    (o.mode ≠ .register → ∃ ea x, p.place = .memory ea ∧ update p v u = .ok () x ∧
      x.wordAt ea = v ∧ (∀ k, ¬ inWord ea k → x.mem.readByte k = u.mem.readByte k) ∧
      x.counters = { u.counters with write := u.counters.write + 1 } ∧ (∀ q, x.reg q = u.reg q) ∧
      x.flags = u.flags ∧ x.status = u.status ∧ x.memWords = u.memWords)

/-- The same register in both operands, a row of the spec's table each, for every register but R7 (the last for every one)
(40_operand_resolver.md section 4; the order of the operands is the spec's decision D9, log 12). -/
def Obligations.SameRegisterInBothOperands : Prop :=
  ∀ (s : State) (r : Reg),
    (r ≠ pcReg → s.inBounds (s.reg r) →
      (∃ t, exec (.mov ⟨.register, r⟩ ⟨.autoInc, r⟩) s = .next t ∧ t.status = s.status ∧
        t.reg r = s.reg r + 2#16 ∧ t.wordAt (s.reg r) = s.reg r) ∧
      (∃ t, exec (.mov ⟨.autoInc, r⟩ ⟨.register, r⟩) s = .next t ∧ t.status = s.status ∧
        t.reg r = s.wordAt (s.reg r)) ∧
      (∃ t, exec (.add ⟨.autoInc, r⟩ ⟨.register, r⟩) s = .next t ∧ t.status = s.status ∧
        t.reg r = s.reg r + 2#16 + s.wordAt (s.reg r))) ∧
    (r ≠ pcReg → s.inBounds (s.reg r - 2#16) →
      ∃ t, exec (.mov ⟨.register, r⟩ ⟨.autoDec, r⟩) s = .next t ∧ t.status = s.status ∧
        t.reg r = s.reg r - 2#16 ∧ t.wordAt (s.reg r - 2#16) = s.reg r) ∧
    (r ≠ pcReg → s.inBounds (s.reg r) → s.inBounds (s.reg r + 2#16) →
      ∃ t, exec (.add ⟨.autoInc, r⟩ ⟨.autoInc, r⟩) s = .next t ∧ t.status = s.status ∧
        t.reg r = s.reg r + 4#16 ∧ t.wordAt (s.reg r + 2#16) = s.wordAt (s.reg r + 2#16) + s.wordAt (s.reg r)) ∧
    (∃ t, exec (.add ⟨.register, r⟩ ⟨.register, r⟩) s = .next t ∧ t.status = s.status ∧ t.reg r = 2#16 * s.reg r)

/-! ### Double-operand instructions and shifts -/

/-- MOV moves the source's value, with N and Z from it and V and C cleared, wherever both operands resolve; an operand's fault
ends it (42_double_operand.md section 2, MOV; that the destination is read is the spec's decision D10, log 12). -/
def Obligations.MovCompletes : Prop :=
  ∀ (src dst : Operand) (s : State),
    (∀ p t q u, resolve src s = .ok p t → resolve dst t = .ok q u →
      ∃ x, exec (.mov src dst) s = .next x ∧ writtenBack q p.value ⟨p.value.msb, p.value == 0#16, false, false⟩ u x) ∧
    (∀ t, resolve src s = .stopped t → exec (.mov src dst) s = .next t) ∧
    (∀ p t u, resolve src s = .ok p t → resolve dst t = .stopped u → exec (.mov src dst) s = .next u)

/-- CMP sets the flags of destination minus source and changes nothing else once both operands are resolved
(42_double_operand.md section 2, CMP; the spec's decision D12, log 12). -/
def Obligations.CmpCompletes : Prop :=
  ∀ (src dst : Operand) (s : State),
    (∀ p t q u, resolve src s = .ok p t → resolve dst t = .ok q u →
      exec (.cmp src dst) s = .next { u with flags :=
        ⟨(q.value - p.value).msb, q.value - p.value == 0#16,
         (q.value.msb != p.value.msb) && ((q.value - p.value).msb == p.value.msb),
         decide (q.value.toNat < p.value.toNat)⟩ }) ∧
    (∀ t, resolve src s = .stopped t → exec (.cmp src dst) s = .next t) ∧
    (∀ p t u, resolve src s = .ok p t → resolve dst t = .stopped u → exec (.cmp src dst) s = .next u)

/-- R123. ADD adds the source to the destination, truncated to 16 bits, with all four flags, wherever both operands resolve; an
operand's fault ends it. -/
def Obligations.AddCompletes : Prop :=
  ∀ (src dst : Operand) (s : State),
    (∀ p t q u, resolve src s = .ok p t → resolve dst t = .ok q u →
      ∃ x res, exec (.add src dst) s = .next x ∧ res = BitVec.ofNat 16 (q.value.toNat + p.value.toNat) ∧
        writtenBack q res ⟨res.msb, res == 0#16, (q.value.msb == p.value.msb) && (res.msb != q.value.msb),
          decide (2 ^ 16 ≤ q.value.toNat + p.value.toNat)⟩ u x) ∧
    (∀ t, resolve src s = .stopped t → exec (.add src dst) s = .next t) ∧
    (∀ p t u, resolve src s = .ok p t → resolve dst t = .stopped u → exec (.add src dst) s = .next u)

/-- SUB subtracts the source from the destination, modulo 2^16, with all four flags, C the borrow (42_double_operand.md
section 2, SUB; the spec's decision D14, log 12). -/
def Obligations.SubCompletes : Prop :=
  ∀ (src dst : Operand) (s : State),
    (∀ p t q u, resolve src s = .ok p t → resolve dst t = .ok q u →
      ∃ x res, exec (.sub src dst) s = .next x ∧ res = BitVec.ofInt 16 (q.value.toNat - p.value.toNat : Int) ∧
        writtenBack q res ⟨res.msb, res == 0#16, (q.value.msb != p.value.msb) && (res.msb == p.value.msb),
          decide (q.value.toNat < p.value.toNat)⟩ u x) ∧
    (∀ t, resolve src s = .stopped t → exec (.sub src dst) s = .next t) ∧
    (∀ p t u, resolve src s = .ok p t → resolve dst t = .stopped u → exec (.sub src dst) s = .next u)

/-- R130. ASL doubles the operand modulo 2^16, V the sign change, C the old bit 15, as ADD of the operand to itself would; an
operand's fault ends it. -/
def Obligations.AslCompletes : Prop :=
  ∀ (dst : Operand) (s : State),
    (∀ q u, resolve dst s = .ok q u →
      ∃ x res f, exec (.asl dst) s = .next x ∧ res = BitVec.ofNat 16 (q.value.toNat * 2) ∧
        f = ⟨res.msb, res == 0#16, res.msb != q.value.msb, q.value.getLsbD 15⟩ ∧ writtenBack q res f u x ∧
        res = q.value + q.value ∧ f = addFlags q.value q.value res ∧ f.v = (f.n ^^ f.c) ∧
        f.v = (q.value.getLsbD 14 ^^ q.value.getLsbD 15)) ∧
    (∀ u, resolve dst s = .stopped u → exec (.asl dst) s = .next u)

/-- ASR halves the operand toward minus infinity, keeping its sign, V written as 0, C the old bit 0 (43_shifts.md, ASR; V is the
spec's decision D13, log 12). -/
def Obligations.AsrCompletes : Prop :=
  ∀ (dst : Operand) (s : State),
    (∀ q u, resolve dst s = .ok q u →
      ∃ x res, exec (.asr dst) s = .next x ∧ res.toInt = q.value.toInt / 2 ∧
        writtenBack q res ⟨q.value.msb, res == 0#16, false, q.value.getLsbD 0⟩ u x) ∧
    (∀ u, resolve dst s = .stopped u → exec (.asr dst) s = .next u)

/-- Every instruction answers a next state from every running state, and goes on running exactly where its operands can be read,
the destination in the state the source leaves; the branches and SOB always go on, HALT always halts. The conditions are on the
state and the operands alone (40_operand_resolver.md section 4, 42_double_operand.md section 1, 43_shifts.md, 44_branches.md,
45_halt.md; on the spec's decisions D1, D7, D8, D9, log 12). -/
def Obligations.InstructionsGoOnExactlyWhereOperandsAreReadable : Prop :=
  ∀ (s : State) (src dst : Operand) (r : Reg) (n : Nat) (off : Int) (i : Instr), s.status = .running →
    (i = .mov src dst ∨ i = .cmp src dst ∨ i = .add src dst ∨ i = .sub src dst →
      ∃ t, exec i s = .next t ∧ (t.status = .running ↔ src.readable s ∧ dst.readable (stateAfter src s))) ∧
    (i = .asl dst ∨ i = .asr dst → ∃ t, exec i s = .next t ∧ (t.status = .running ↔ dst.readable s)) ∧
    (i = .beq off ∨ i = .bne off ∨ i = .br off ∨ i = .sob r n → ∃ t, exec i s = .next t ∧ t.status = .running) ∧
    (i = .halt → ∃ t, exec i s = .next t ∧ t.status = .halted)

/-- When an operand faults, no result, no writeback and no flag change follow, and no instruction is counted: the state keeps
memory, flags and every counter but the fetches and reads done, and records the address (42_double_operand.md section 1,
60_exceptions.md, state at a fault; the spec's decision D18, log 3). -/
def Obligations.OperandFaultLeavesTheRest : Prop :=
  ∀ (i : Instr) (s t : State), exec i s = .next t → t.status.isFault = true → s.status.isFault = false →
    (∃ a, t.status = .fault .bounds a ∧ ¬ s.inBounds a) ∧ t.mem = s.mem ∧ t.flags = s.flags ∧
    t.counters.instr = s.counters.instr ∧ t.counters.write = s.counters.write ∧
    t.counters.branch = s.counters.branch ∧ t.counters.taken = s.counters.taken

/-! ### Control transfer and HALT -/

/-- R140, R141, R142. BEQ, BNE and BR: the branch is counted; when it is taken the PC moves by twice the offset, modulo 2^16, and
it counts as taken, whatever the offset; nothing else changes and no flag is written. -/
def Obligations.BranchesMoveThePcByTwiceTheOffset : Prop :=
  ∀ (s : State) (off : Int),
    let taken := (s.setPc (BitVec.ofInt 16 (s.pc.toNat + 2 * off))).setCounters
      { s.counters with branch := s.counters.branch + 1, taken := s.counters.taken + 1 }
    let notTaken := s.setCounters { s.counters with branch := s.counters.branch + 1 }
    (s.flags.z = true → exec (.beq off) s = .next taken) ∧ (s.flags.z = false → exec (.beq off) s = .next notTaken) ∧
    (s.flags.z = false → exec (.bne off) s = .next taken) ∧ (s.flags.z = true → exec (.bne off) s = .next notTaken) ∧
    exec (.br off) s = .next taken

/-- SOB decrements its register, modulo 2^16, and tests it after; if it is not zero the PC goes back by twice the offset; no flag
is written. With R7 as the register the offset is taken from the decremented PC (44_branches.md, SOB; the spec's decision D6,
log 12). -/
def Obligations.SobDecrementsAndBranchesBack : Prop :=
  ∀ (s : State) (r : Reg) (off : Nat), ∃ t, exec (.sob r off) s = .next t ∧
    (r ≠ pcReg → t.reg r = s.reg r - 1#16 ∧
      (s.reg r ≠ 1#16 → t.pc = BitVec.ofInt 16 (s.pc.toNat - 2 * off)) ∧ (s.reg r = 1#16 → t.pc = s.pc)) ∧
    (r = pcReg → (s.pc ≠ 1#16 → t.pc = BitVec.ofInt 16 (s.pc.toNat - 1 - 2 * off)) ∧ (s.pc = 1#16 → t.pc = 0#16)) ∧
    t.counters = { s.counters with
      branch := s.counters.branch + 1, taken := s.counters.taken + (if s.reg r = 1#16 then 0 else 1) } ∧
    (∀ q, q ≠ r → q ≠ pcReg → t.reg q = s.reg q) ∧ t.flags = s.flags ∧ t.status = s.status ∧ t.mem = s.mem ∧
    t.memWords = s.memWords

/-- HALT sets the status and changes nothing else (45_halt.md; the spec's decision D23, log 12). -/
def Obligations.HaltStopsTheCore : Prop :=
  ∀ s : State, exec .halt s = .next { s with status := .halted }

/-- The frame of MOV, ADD and SUB: registers other than the PC, those a mode steps and a mode 0 destination; memory outside the
word at the destination's effective address, computed by the resolver after the source operand; the counters of instructions
and branches; the size; and, unless an operand faulted, the status (40_operand_resolver.md, 42_double_operand.md). -/
def Obligations.FrameOfMovAddSub : Prop :=
  ∀ (src dst : Operand) (i : Instr) (s t : State), i = .mov src dst ∨ i = .add src dst ∨ i = .sub src dst →
    exec i s = .next t →
    (∀ q, q ≠ pcReg → ¬ src.steps q → ¬ dst.steps q → dst ≠ ⟨.register, q⟩ → t.reg q = s.reg q) ∧
    sameBytesOutside (storeAddress i s) s t ∧ t.memWords = s.memWords ∧
    t.counters.instr = s.counters.instr ∧ t.counters.branch = s.counters.branch ∧ t.counters.taken = s.counters.taken ∧
    (t.status = s.status ∨ ∃ a, t.status = .fault .bounds a)

/-- The frame of CMP: "compare never mutates its operands; only flags change", the steps of its modes and the PC apart; all of
memory and the count of data writes stay (42_double_operand.md section 2). -/
def Obligations.FrameOfCmp : Prop :=
  ∀ (src dst : Operand) (s t : State), exec (.cmp src dst) s = .next t →
    (∀ q, q ≠ pcReg → ¬ src.steps q → ¬ dst.steps q → t.reg q = s.reg q) ∧
    (∀ k, t.mem.readByte k = s.mem.readByte k) ∧ t.memWords = s.memWords ∧
    t.counters.instr = s.counters.instr ∧ t.counters.write = s.counters.write ∧
    t.counters.branch = s.counters.branch ∧ t.counters.taken = s.counters.taken ∧
    (t.status = s.status ∨ ∃ a, t.status = .fault .bounds a)

/-- The frame of ASL and ASR, as that of MOV with the one operand (43_shifts.md). -/
def Obligations.FrameOfShifts : Prop :=
  ∀ (dst : Operand) (i : Instr) (s t : State), i = .asl dst ∨ i = .asr dst → exec i s = .next t →
    (∀ q, q ≠ pcReg → ¬ dst.steps q → dst ≠ ⟨.register, q⟩ → t.reg q = s.reg q) ∧
    sameBytesOutside (storeAddress i s) s t ∧ t.memWords = s.memWords ∧
    t.counters.instr = s.counters.instr ∧ t.counters.branch = s.counters.branch ∧ t.counters.taken = s.counters.taken ∧
    (t.status = s.status ∨ ∃ a, t.status = .fault .bounds a)

/-- The frame of BEQ, BNE, BR, SOB and HALT: every register but the PC (and SOB's own, and HALT keeps the PC too), the flags, all
of memory, the size, the counters of instructions, fetches, reads and writes; the status but for HALT (44_branches.md,
45_halt.md). -/
def Obligations.FrameOfBranchesAndHalt : Prop :=
  ∀ (i : Instr) (r : Reg) (off : Int) (n : Nat) (s t : State),
    i = .beq off ∨ i = .bne off ∨ i = .br off ∨ i = .sob r n ∨ i = .halt → exec i s = .next t →
    (∀ q, q ≠ pcReg → i ≠ .sob q n → t.reg q = s.reg q) ∧ (i = .halt → t.pc = s.pc ∧ t.counters = s.counters) ∧
    t.flags = s.flags ∧ (∀ k, t.mem.readByte k = s.mem.readByte k) ∧ t.memWords = s.memWords ∧
    t.counters.instr = s.counters.instr ∧ t.counters.fetch = s.counters.fetch ∧ t.counters.read = s.counters.read ∧
    t.counters.write = s.counters.write ∧ (i ≠ .halt → t.status = s.status)

/-! ### The condition codes -/

/-- The six flag-setting instructions replace all four flags together by their category's function of the operand values; BEQ,
BNE, BR, SOB and HALT write none; neither do the fetch, the resolver, writeback and the counters (46_condition_codes.md, update
discipline; that CMP takes the subtract category is the spec's decision D12, ASR's V its D13, the borrow as C its D14, log 12). -/
def Obligations.FlagsAreWrittenOnlyByTheirInstructions : Prop :=
  (∀ (src dst : Operand) (s t u x : State) (p q : Phrase), resolve src s = .ok p t → resolve dst t = .ok q u →
    (exec (.mov src dst) s = .next x → x.flags = moveFlags p.value) ∧
    (exec (.cmp src dst) s = .next x → x.flags = subFlags q.value p.value (q.value - p.value)) ∧
    (exec (.add src dst) s = .next x → x.flags = addFlags q.value p.value (q.value + p.value)) ∧
    (exec (.sub src dst) s = .next x → x.flags = subFlags q.value p.value (q.value - p.value))) ∧
  (∀ (dst : Operand) (s u x : State) (q : Phrase), resolve dst s = .ok q u →
    (exec (.asl dst) s = .next x → x.flags = shiftLeftFlags q.value (q.value <<< 1)) ∧
    (exec (.asr dst) s = .next x → x.flags = shiftRightFlags q.value (q.value.sshiftRight 1))) ∧
  (∀ (i : Instr) (off : Int) (r : Reg) (n : Nat) (s x : State),
    i = .beq off ∨ i = .bne off ∨ i = .br off ∨ i = .sob r n ∨ i = .halt → exec i s = .next x → x.flags = s.flags) ∧
  (∀ (o : Operand) (s t : State) (p : Phrase) (v w : Word),
    (resolve o s = .ok p t ∨ resolve o s = .stopped t ∨ fetchWord s = .ok w t ∨ fetchWord s = .stopped t ∨
      update p v s = .ok () t ∨ update p v s = .stopped t) → t.flags = s.flags) ∧
  (∀ s t : State, t = countInstr s ∨ t = countFetch s ∨ t = countRead s ∨ t = countWrite s ∨ t = countBranch s ∨
    t = countTaken s ∨ t = completeStep s → t.flags = s.flags)

/-- R160, R161. After each of the six flag-setting instructions N is the sign bit of its result and Z says the result is zero, and
they are not both 1; MOV clears V and C. -/
def Obligations.NegativeAndZeroComeFromTheResult : Prop :=
  (∀ (src dst : Operand) (s t u x : State) (p q : Phrase), resolve src s = .ok p t → resolve dst t = .ok q u →
    (exec (.mov src dst) s = .next x → x.flags.signAndZeroOf p.value ∧ x.flags.v = false ∧ x.flags.c = false) ∧
    (exec (.cmp src dst) s = .next x → x.flags.signAndZeroOf (q.value - p.value)) ∧
    (exec (.add src dst) s = .next x → x.flags.signAndZeroOf (q.value + p.value)) ∧
    (exec (.sub src dst) s = .next x → x.flags.signAndZeroOf (q.value - p.value))) ∧
  (∀ (dst : Operand) (s u x : State) (q : Phrase), resolve dst s = .ok q u →
    (exec (.asl dst) s = .next x → x.flags.signAndZeroOf (BitVec.ofNat 16 (q.value.toNat * 2))) ∧
    (exec (.asr dst) s = .next x → x.flags.signAndZeroOf (BitVec.ofInt 16 (q.value.toInt / 2))))

/-- R162. After ADD, V is 1 exactly when the signed sum leaves -32768 to 32767 and C exactly when the unsigned sum leaves 16 bits,
in each of the forms the rule gives. -/
def Obligations.AddFlagsAreOverflowAndCarry : Prop :=
  ∀ (src dst : Operand) (s t u x : State) (p q : Phrase), resolve src s = .ok p t → resolve dst t = .ok q u →
    exec (.add src dst) s = .next x →
    let d := q.value
    let e := p.value
    let res := BitVec.ofNat 16 (d.toNat + e.toNat)
    (x.flags.v = true ↔ d.msb = e.msb ∧ res.msb ≠ d.msb) ∧
    (x.flags.v = true ↔ d.toInt + e.toInt < -32768 ∨ 32767 < d.toInt + e.toInt) ∧
    x.flags.v = ((d ^^^ res) &&& (e ^^^ res)).msb ∧
    (x.flags.c = true ↔ 2 ^ 16 ≤ d.toNat + e.toNat) ∧ (x.flags.c = true ↔ res.toNat < d.toNat)

/-- After SUB and CMP, V is 1 exactly when the signed difference of destination and source leaves -32768 to 32767, C exactly on a
borrow (46_condition_codes.md, category subtract; the spec's decisions D12 and D14, log 12). -/
def Obligations.SubFlagsAreOverflowAndBorrow : Prop :=
  ∀ (i : Instr) (src dst : Operand) (s t u x : State) (p q : Phrase), i = .sub src dst ∨ i = .cmp src dst →
    resolve src s = .ok p t → resolve dst t = .ok q u → exec i s = .next x →
    let d := q.value
    let e := p.value
    let res := BitVec.ofInt 16 (d.toNat - e.toNat : Int)
    (x.flags.v = true ↔ d.msb ≠ e.msb ∧ res.msb = e.msb) ∧
    (x.flags.v = true ↔ d.toInt - e.toInt < -32768 ∨ 32767 < d.toInt - e.toInt) ∧
    x.flags.v = ((d ^^^ e) &&& (d ^^^ res)).msb ∧
    (x.flags.c = true ↔ (d.toNat : Int) - e.toNat < 0)

/-- R164. After ASL, V is the sign change, which is bit 14 exclusive-or bit 15 and N exclusive-or C; C is the old bit 15. -/
def Obligations.ShiftLeftFlagsAreSignChangeAndTopBit : Prop :=
  ∀ (dst : Operand) (s u x : State) (q : Phrase), resolve dst s = .ok q u → exec (.asl dst) s = .next x →
    let d := q.value
    let res := BitVec.ofNat 16 (d.toNat * 2)
    (x.flags.v = true ↔ res.getLsbD 15 ≠ d.getLsbD 15) ∧ x.flags.v = (d.getLsbD 14 ^^ d.getLsbD 15) ∧
    x.flags.c = d.getLsbD 15 ∧ x.flags.v = (x.flags.n ^^ x.flags.c)

/-- ADD and then SUB of one register into another gives the old value back, whatever the two hold; only flags and nothing else of
the register file or memory differ (42_double_operand.md section 3, inverse law). -/
def Obligations.AddThenSubRestores : Prop :=
  ∀ (s : State) (a d : Reg), a ≠ d →
    ∃ t u, exec (.add ⟨.register, a⟩ ⟨.register, d⟩) s = .next t ∧
      exec (.sub ⟨.register, a⟩ ⟨.register, d⟩) t = .next u ∧
      t.reg d = s.reg d + s.reg a ∧ u = { s with flags := u.flags }

/-! ### Reset and launch -/

/-- What reset leaves: PC 0, status RUN, the counters 0, and the spec's own zeros (its decision D15, log 5) for R0 to R6, the
flags and all of memory (70_reset_and_hazards.md section 1, 10_state.md section 8). -/
def Obligations.ResetLeavesTheTableOfValues : Prop :=
  ∀ n : Nat, (State.resetWith n).pc = 0#16 ∧ (State.resetWith n).status = .running ∧
    (State.resetWith n).counters = ⟨0, 0, 0, 0, 0, 0⟩ ∧ (∀ q, (State.resetWith n).reg q = 0#16) ∧
    (State.resetWith n).flags = ⟨false, false, false, false⟩ ∧ (∀ a, (State.resetWith n).wordAt a = 0#16) ∧
    (State.resetWith n).memWords = n

/-- A launch with a legal size and an image that fits leaves the reset state with image word k in M[k] and 0 after the image, and
any other launch is refused (70_reset_and_hazards.md section 2; D1, D15, D25, log 5, log 9). -/
def Obligations.LaunchPlacesTheImage : Prop :=
  ∀ (n : Nat) (image : List Word),
    (1 ≤ n → n ≤ 32768 → image.length ≤ n → ∃ s, launch n image = .next s ∧
      (∀ k (h : k < image.length), s.mem.readWord k = image[k]) ∧
      (∀ k, image.length ≤ k → s.mem.readWord k = 0#16) ∧
      s = (State.resetWith n).setMem s.mem) ∧
    (n < 1 ∨ 32768 < n → launch n image = .refused .memorySizeOutOfRange) ∧
    (1 ≤ n → n ≤ 32768 → n < image.length → launch n image = .refused .imageTooLong)
end

