-- ==== Sys2Proof/Laws/State.lean ====
section
/-! SUPPORT. One lemma for each field and each update of State, so that no proof unfolds a record update. -/

namespace Sys2Proof.Machine

/-! ### Registers -/

theorem State.reg_setReg (s : State) (r q : Reg) (v : Word) :
    (s.setReg r v).reg q = if q = r then v else s.reg q := by
  simp only [State.reg, State.setReg, Fin.getElem_fin, Vector.getElem_set, Fin.ext_iff, eq_comm]

@[simp] theorem State.setReg_reg_same (s : State) (r : Reg) (v : Word) : (s.setReg r v).reg r = v := by
  simp [State.reg_setReg]

@[simp] theorem State.setReg_reg_of_ne (s : State) {r q : Reg} (v : Word) (h : q ≠ r) :
    (s.setReg r v).reg q = s.reg q := by
  simp [State.reg_setReg, h]

@[simp] theorem State.setPc_pc (s : State) (v : Word) : (s.setPc v).pc = v := by
  simp [State.setPc, State.pc]

@[simp] theorem State.setPc_reg_of_ne (s : State) {q : Reg} (v : Word) (h : q ≠ pcReg) :
    (s.setPc v).reg q = s.reg q := by
  simp [State.setPc, h]

theorem State.reg_setPc (s : State) (q : Reg) (v : Word) :
    (s.setPc v).reg q = if q = pcReg then v else s.reg q := State.reg_setReg s pcReg q v

@[simp] theorem State.setReg_pc_of_ne (s : State) {r : Reg} (v : Word) (h : r ≠ pcReg) :
    (s.setReg r v).pc = s.pc := by
  simp [State.pc, Ne.symm h]

/-- Register files that agree register by register are equal. -/
theorem State.regs_ext {s t : State} (h : ∀ r, s.reg r = t.reg r) : s.regs = t.regs := by
  apply Vector.ext
  intro i hi
  exact h ⟨i, hi⟩

/-! ### `setReg` -/

@[simp] theorem State.setReg_flags (s : State) (r : Reg) (v : Word) : (s.setReg r v).flags = s.flags := rfl
@[simp] theorem State.setReg_counters (s : State) (r : Reg) (v : Word) : (s.setReg r v).counters = s.counters := rfl
@[simp] theorem State.setReg_status (s : State) (r : Reg) (v : Word) : (s.setReg r v).status = s.status := rfl
@[simp] theorem State.setReg_mem (s : State) (r : Reg) (v : Word) : (s.setReg r v).mem = s.mem := rfl
@[simp] theorem State.setReg_memWords (s : State) (r : Reg) (v : Word) : (s.setReg r v).memWords = s.memWords := rfl

/-! ### `setPc` -/

@[simp] theorem State.setPc_flags (s : State) (v : Word) : (s.setPc v).flags = s.flags := rfl
@[simp] theorem State.setPc_counters (s : State) (v : Word) : (s.setPc v).counters = s.counters := rfl
@[simp] theorem State.setPc_status (s : State) (v : Word) : (s.setPc v).status = s.status := rfl
@[simp] theorem State.setPc_mem (s : State) (v : Word) : (s.setPc v).mem = s.mem := rfl
@[simp] theorem State.setPc_memWords (s : State) (v : Word) : (s.setPc v).memWords = s.memWords := rfl

/-! ### `setFlags` -/

@[simp] theorem State.setFlags_flags (s : State) (f : Flags) : (s.setFlags f).flags = f := rfl
@[simp] theorem State.setFlags_reg (s : State) (f : Flags) (q : Reg) : (s.setFlags f).reg q = s.reg q := rfl
@[simp] theorem State.setFlags_pc (s : State) (f : Flags) : (s.setFlags f).pc = s.pc := rfl
@[simp] theorem State.setFlags_regs (s : State) (f : Flags) : (s.setFlags f).regs = s.regs := rfl
@[simp] theorem State.setFlags_counters (s : State) (f : Flags) : (s.setFlags f).counters = s.counters := rfl
@[simp] theorem State.setFlags_status (s : State) (f : Flags) : (s.setFlags f).status = s.status := rfl
@[simp] theorem State.setFlags_mem (s : State) (f : Flags) : (s.setFlags f).mem = s.mem := rfl
@[simp] theorem State.setFlags_memWords (s : State) (f : Flags) : (s.setFlags f).memWords = s.memWords := rfl

/-! ### `setStatus` -/

@[simp] theorem State.setStatus_status (s : State) (x : Status) : (s.setStatus x).status = x := rfl
@[simp] theorem State.setStatus_reg (s : State) (x : Status) (q : Reg) : (s.setStatus x).reg q = s.reg q := rfl
@[simp] theorem State.setStatus_pc (s : State) (x : Status) : (s.setStatus x).pc = s.pc := rfl
@[simp] theorem State.setStatus_regs (s : State) (x : Status) : (s.setStatus x).regs = s.regs := rfl
@[simp] theorem State.setStatus_flags (s : State) (x : Status) : (s.setStatus x).flags = s.flags := rfl
@[simp] theorem State.setStatus_counters (s : State) (x : Status) : (s.setStatus x).counters = s.counters := rfl
@[simp] theorem State.setStatus_mem (s : State) (x : Status) : (s.setStatus x).mem = s.mem := rfl
@[simp] theorem State.setStatus_memWords (s : State) (x : Status) : (s.setStatus x).memWords = s.memWords := rfl

/-! ### `setMem` -/

@[simp] theorem State.setMem_mem (s : State) (m : Memory) : (s.setMem m).mem = m := rfl
@[simp] theorem State.setMem_reg (s : State) (m : Memory) (q : Reg) : (s.setMem m).reg q = s.reg q := rfl
@[simp] theorem State.setMem_pc (s : State) (m : Memory) : (s.setMem m).pc = s.pc := rfl
@[simp] theorem State.setMem_regs (s : State) (m : Memory) : (s.setMem m).regs = s.regs := rfl
@[simp] theorem State.setMem_flags (s : State) (m : Memory) : (s.setMem m).flags = s.flags := rfl
@[simp] theorem State.setMem_counters (s : State) (m : Memory) : (s.setMem m).counters = s.counters := rfl
@[simp] theorem State.setMem_status (s : State) (m : Memory) : (s.setMem m).status = s.status := rfl
@[simp] theorem State.setMem_memWords (s : State) (m : Memory) : (s.setMem m).memWords = s.memWords := rfl

/-! ### `setCounters` -/

@[simp] theorem State.setCounters_counters (s : State) (k : Counters) : (s.setCounters k).counters = k := rfl
@[simp] theorem State.setCounters_reg (s : State) (k : Counters) (q : Reg) : (s.setCounters k).reg q = s.reg q := rfl
@[simp] theorem State.setCounters_pc (s : State) (k : Counters) : (s.setCounters k).pc = s.pc := rfl
@[simp] theorem State.setCounters_regs (s : State) (k : Counters) : (s.setCounters k).regs = s.regs := rfl
@[simp] theorem State.setCounters_flags (s : State) (k : Counters) : (s.setCounters k).flags = s.flags := rfl
@[simp] theorem State.setCounters_status (s : State) (k : Counters) : (s.setCounters k).status = s.status := rfl
@[simp] theorem State.setCounters_mem (s : State) (k : Counters) : (s.setCounters k).mem = s.mem := rfl
@[simp] theorem State.setCounters_memWords (s : State) (k : Counters) : (s.setCounters k).memWords = s.memWords := rfl

end Sys2Proof.Machine
end

