-- ==== Sys2Proof/Laws/Memory.lean ====
section
/-! SUPPORT. The laws of memory: read after write, and that every memory operation keeps the canonical form. -/

namespace Sys2Proof.Machine

/-! ### Words and their bytes -/

@[simp] theorem wordOfBytes_low_high (v : Word) : wordOfBytes (lowByte v) (highByte v) = v := by
  apply BitVec.eq_of_toNat_eq
  have := v.isLt
  simp only [wordOfBytes, lowByte, highByte, BitVec.toNat_append, BitVec.extractLsb'_toNat, Nat.shiftRight_zero]
  rw [← Nat.shiftLeft_add_eq_or_of_lt (Nat.mod_lt _ (by decide)), Nat.shiftLeft_eq, Nat.shiftRight_eq_div_pow]
  omega

/-! ### One byte -/

@[simp] theorem Memory.readByte_nil (a : Nat) : Memory.readByte [] a = Config.unloadedByte := rfl

theorem Memory.readByte_erase (m : Memory) (a k : Nat) :
    (m.eraseByte a).readByte k = if k = a then Config.unloadedByte else m.readByte k := by
  induction m with
  | nil => simp [Memory.eraseByte]
  | cons c m ih =>
    unfold Memory.eraseByte at ih ⊢
    by_cases hc : c.1 = a
    · rw [List.filter_cons_of_neg (by simp [hc]), ih, Memory.readByte, hc]
      by_cases hk : k = a
      · simp [hk]
      · simp [hk, Ne.symm hk]
    · rw [List.filter_cons_of_pos (by simp [hc]), Memory.readByte, Memory.readByte, ih]
      by_cases hk : k = a
      · simp [hk, hc]
      · simp [hk]

theorem Memory.readByte_insert (m : Memory) (a k : Nat) (b : Byte) (h : ∀ c ∈ m, c.1 ≠ a) :
    (m.insertByte a b).readByte k = if k = a then b else m.readByte k := by
  induction m with
  | nil => simp [Memory.insertByte, Memory.readByte, eq_comm]
  | cons c m ih =>
    have hc : c.1 ≠ a := h c (by simp)
    have ih := ih fun d hd => h d (by simp [hd])
    unfold Memory.insertByte
    split
    · simp [Memory.readByte, eq_comm]
    · simp only [Memory.readByte, ih]
      by_cases hk : k = a <;> simp_all

theorem Memory.erase_ne (m : Memory) (a : Nat) : ∀ c ∈ m.eraseByte a, c.1 ≠ a := by
  simp [Memory.eraseByte]

/-- A read after a write of one byte: the byte written at its address, as before everywhere else. -/
theorem Memory.readByte_write (m : Memory) (a k : Nat) (b : Byte) :
    (m.writeByte a b).readByte k = if k = a then b else m.readByte k := by
  unfold Memory.writeByte
  split
  · next h => rw [Memory.readByte_erase, h]
  · rw [Memory.readByte_insert _ _ _ _ (m.erase_ne a), Memory.readByte_erase]
    by_cases hk : k = a <;> simp [hk]

/-! ### One word -/

/-- What a word store leaves at each byte: its two bytes are the word's, every other byte is as before. -/
theorem Memory.readByte_writeWord (m : Memory) (k j : Nat) (v : Word) :
    (m.writeWord k v).readByte j =
      if j = 2 * k + 1 then highByte v else if j = 2 * k then lowByte v else m.readByte j := by
  simp [Memory.writeWord, Memory.readByte_write]

/-- A word store leaves every byte outside the word as it was. -/
theorem Memory.readByte_writeWord_outside (m : Memory) {k j : Nat} (v : Word) (h0 : j ≠ 2 * k) (h1 : j ≠ 2 * k + 1) :
    (m.writeWord k v).readByte j = m.readByte j := by
  simp [Memory.readByte_writeWord, h0, h1]

@[simp] theorem Memory.readWord_writeWord_same (m : Memory) (k : Nat) (v : Word) :
    (m.writeWord k v).readWord k = v := by
  simp [Memory.readWord, Memory.readByte_writeWord]

@[simp] theorem Memory.readWord_writeWord_of_ne (m : Memory) {k j : Nat} (v : Word) (h : j ≠ k) :
    (m.writeWord k v).readWord j = m.readWord j := by
  have h1 : ¬ 2 * j = 2 * k + 1 := by omega
  have h2 : ¬ 2 * j + 1 = 2 * k := by omega
  simp [Memory.readWord, Memory.readByte_writeWord, h, h1, h2]

/-! ### The canonical form -/

theorem Memory.wf_erase {m : Memory} (a : Nat) (h : m.wf) : (m.eraseByte a).wf :=
  ⟨h.1.filter _, fun c hc => h.2 c (List.mem_of_mem_filter hc)⟩

theorem Memory.mem_insert {m : Memory} {a : Nat} {b : Byte} {c : Host.Cell} :
    c ∈ m.insertByte a b ↔ c = (a, b) ∨ c ∈ m := by
  induction m with
  | nil => simp [Memory.insertByte]
  | cons d m ih =>
    unfold Memory.insertByte
    split
    · simp
    · simp only [List.mem_cons, ih]
      tauto

theorem Memory.wf_insert {m : Memory} {a : Nat} {b : Byte} (hm : m.wf) (ha : ∀ c ∈ m, c.1 ≠ a)
    (hb : b ≠ Config.unloadedByte) : (m.insertByte a b).wf := by
  refine ⟨?_, fun c hc => ?_⟩
  · induction m with
    | nil => simp [Memory.insertByte]
    | cons d m ih =>
      obtain ⟨⟨hd, hp⟩, hv⟩ := And.imp_left List.pairwise_cons.mp hm
      unfold Memory.insertByte
      split
      · next hlt =>
        refine List.pairwise_cons.mpr ⟨fun c hc => ?_, List.pairwise_cons.mpr ⟨hd, hp⟩⟩
        rcases List.mem_cons.mp hc with rfl | hc
        · exact hlt
        · exact Nat.lt_trans hlt (hd c hc)
      · next hge =>
        refine List.pairwise_cons.mpr ⟨fun c hc => ?_, ?_⟩
        · rcases Memory.mem_insert.mp hc with rfl | hc
          · have := ha d (by simp)
            show d.1 < a
            omega
          · exact hd c hc
        · exact ih ⟨hp, fun c hc => hv c (by simp [hc])⟩ fun c hc => ha c (by simp [hc])
  · rcases Memory.mem_insert.mp hc with rfl | hc
    · exact hb
    · exact hm.2 c hc

/-- A byte store keeps the canonical form. -/
theorem Memory.wf_writeByte {m : Memory} (a : Nat) (b : Byte) (h : m.wf) : (m.writeByte a b).wf := by
  unfold Memory.writeByte
  split
  · exact Memory.wf_erase a h
  · next hb => exact Memory.wf_insert (Memory.wf_erase a h) (m.erase_ne a) hb

/-- A word store keeps the canonical form. -/
theorem Memory.wf_writeWord {m : Memory} (k : Nat) (v : Word) (h : m.wf) : (m.writeWord k v).wf :=
  Memory.wf_writeByte _ _ (Memory.wf_writeByte _ _ h)

/-- The memory of reset, which lists nothing, has the canonical form. -/
theorem Memory.wf_nil : Memory.wf [] := ⟨List.Pairwise.nil, by simp⟩

/-! ### The extent -/

theorem Memory.mem_writeByte {m : Memory} {a : Nat} {b : Byte} {c : Host.Cell} (h : c ∈ m.writeByte a b) :
    c.1 = a ∨ c ∈ m := by
  unfold Memory.writeByte at h
  split at h
  · exact .inr (List.mem_of_mem_filter h)
  · rcases Memory.mem_insert.mp h with rfl | h
    · exact .inl rfl
    · exact .inr (List.mem_of_mem_filter h)

/-- A word store inside memory lists no cell outside it. -/
theorem Memory.inside_writeWord {m : Memory} {k n : Nat} (v : Word) (hk : k < n) (h : ∀ c ∈ m, c.1 < 2 * n) :
    ∀ c ∈ m.writeWord k v, c.1 < 2 * n := by
  intro c hc
  rcases Memory.mem_writeByte hc with hc | hc
  · omega
  · rcases Memory.mem_writeByte hc with hc | hc
    · omega
    · exact h c hc

end Sys2Proof.Machine
end

