-- ==== Sys2Proof/Laws/Ops.lean ====
section
/-! SUPPORT. What each shared operation can do, said once. -/

namespace Sys2Proof.Machine

/-! ### Sequencing -/

@[simp] theorem Access.ok_andThen {α β : Type} (v : α) (s : State) (f : α → State → Access β) :
    (Access.ok v s).andThen f = f v s := rfl

@[simp] theorem Access.stopped_andThen {α β : Type} (s : State) (f : α → State → Access β) :
    (Access.stopped s : Access α).andThen f = .stopped s := rfl

/-- A sequence ends well exactly when both its parts do. -/
theorem Access.andThen_eq_ok {α β : Type} {x : Access α} {f : α → State → Access β} {b : β} {u : State} :
    x.andThen f = .ok b u ↔ ∃ a t, x = .ok a t ∧ f a t = .ok b u := by
  cases x <;> simp

/-- A sequence is stopped exactly when one of its parts is. -/
theorem Access.andThen_eq_stopped {α β : Type} {x : Access α} {f : α → State → Access β} {u : State} :
    x.andThen f = .stopped u ↔ x = .stopped u ∨ ∃ a t, x = .ok a t ∧ f a t = .stopped u := by
  cases x <;> simp

/-- A handler's outcome is always a next state: the one it reached, or the one a fault left. -/
theorem finish_eq_next {x : Access Unit} {t : State} : finish x = .next t ↔ x = .ok () t ∨ x = .stopped t := by
  cases x <;> simp [finish]

@[simp] theorem finish_ok (t : State) : finish (.ok () t) = .next t := rfl
@[simp] theorem finish_stopped (t : State) : finish (.stopped t) = .next t := rfl

/-! ### Counters and faults: the fields they leave alone -/

@[simp] theorem countInstr_reg (s : State) (q : Reg) : (countInstr s).reg q = s.reg q := rfl
@[simp] theorem countInstr_pc (s : State) : (countInstr s).pc = s.pc := rfl
@[simp] theorem countInstr_flags (s : State) : (countInstr s).flags = s.flags := rfl
@[simp] theorem countInstr_status (s : State) : (countInstr s).status = s.status := rfl
@[simp] theorem countInstr_mem (s : State) : (countInstr s).mem = s.mem := rfl
@[simp] theorem countInstr_memWords (s : State) : (countInstr s).memWords = s.memWords := rfl
@[simp] theorem countInstr_counters (s : State) :
    (countInstr s).counters = { s.counters with instr := s.counters.instr + 1 } := rfl

@[simp] theorem countFetch_reg (s : State) (q : Reg) : (countFetch s).reg q = s.reg q := rfl
@[simp] theorem countFetch_pc (s : State) : (countFetch s).pc = s.pc := rfl
@[simp] theorem countFetch_flags (s : State) : (countFetch s).flags = s.flags := rfl
@[simp] theorem countFetch_status (s : State) : (countFetch s).status = s.status := rfl
@[simp] theorem countFetch_mem (s : State) : (countFetch s).mem = s.mem := rfl
@[simp] theorem countFetch_memWords (s : State) : (countFetch s).memWords = s.memWords := rfl
@[simp] theorem countFetch_counters (s : State) :
    (countFetch s).counters = { s.counters with fetch := s.counters.fetch + 1 } := rfl

@[simp] theorem countRead_reg (s : State) (q : Reg) : (countRead s).reg q = s.reg q := rfl
@[simp] theorem countRead_pc (s : State) : (countRead s).pc = s.pc := rfl
@[simp] theorem countRead_flags (s : State) : (countRead s).flags = s.flags := rfl
@[simp] theorem countRead_status (s : State) : (countRead s).status = s.status := rfl
@[simp] theorem countRead_mem (s : State) : (countRead s).mem = s.mem := rfl
@[simp] theorem countRead_memWords (s : State) : (countRead s).memWords = s.memWords := rfl
@[simp] theorem countRead_counters (s : State) :
    (countRead s).counters = { s.counters with read := s.counters.read + 1 } := rfl

@[simp] theorem countWrite_reg (s : State) (q : Reg) : (countWrite s).reg q = s.reg q := rfl
@[simp] theorem countWrite_pc (s : State) : (countWrite s).pc = s.pc := rfl
@[simp] theorem countWrite_flags (s : State) : (countWrite s).flags = s.flags := rfl
@[simp] theorem countWrite_status (s : State) : (countWrite s).status = s.status := rfl
@[simp] theorem countWrite_mem (s : State) : (countWrite s).mem = s.mem := rfl
@[simp] theorem countWrite_memWords (s : State) : (countWrite s).memWords = s.memWords := rfl
@[simp] theorem countWrite_counters (s : State) :
    (countWrite s).counters = { s.counters with write := s.counters.write + 1 } := rfl

@[simp] theorem countBranch_reg (s : State) (q : Reg) : (countBranch s).reg q = s.reg q := rfl
@[simp] theorem countBranch_pc (s : State) : (countBranch s).pc = s.pc := rfl
@[simp] theorem countBranch_flags (s : State) : (countBranch s).flags = s.flags := rfl
@[simp] theorem countBranch_status (s : State) : (countBranch s).status = s.status := rfl
@[simp] theorem countBranch_mem (s : State) : (countBranch s).mem = s.mem := rfl
@[simp] theorem countBranch_memWords (s : State) : (countBranch s).memWords = s.memWords := rfl
@[simp] theorem countBranch_counters (s : State) :
    (countBranch s).counters = { s.counters with branch := s.counters.branch + 1 } := rfl

@[simp] theorem countTaken_reg (s : State) (q : Reg) : (countTaken s).reg q = s.reg q := rfl
@[simp] theorem countTaken_pc (s : State) : (countTaken s).pc = s.pc := rfl
@[simp] theorem countTaken_flags (s : State) : (countTaken s).flags = s.flags := rfl
@[simp] theorem countTaken_status (s : State) : (countTaken s).status = s.status := rfl
@[simp] theorem countTaken_mem (s : State) : (countTaken s).mem = s.mem := rfl
@[simp] theorem countTaken_memWords (s : State) : (countTaken s).memWords = s.memWords := rfl
@[simp] theorem countTaken_counters (s : State) :
    (countTaken s).counters = { s.counters with taken := s.counters.taken + 1 } := rfl

@[simp] theorem raiseFault_reg (k : FaultKind) (i : Word) (s : State) (q : Reg) : (raiseFault k i s).reg q = s.reg q := rfl
@[simp] theorem raiseFault_pc (k : FaultKind) (i : Word) (s : State) : (raiseFault k i s).pc = s.pc := rfl
@[simp] theorem raiseFault_flags (k : FaultKind) (i : Word) (s : State) : (raiseFault k i s).flags = s.flags := rfl
@[simp] theorem raiseFault_status (k : FaultKind) (i : Word) (s : State) : (raiseFault k i s).status = .fault k i := rfl
@[simp] theorem raiseFault_mem (k : FaultKind) (i : Word) (s : State) : (raiseFault k i s).mem = s.mem := rfl
@[simp] theorem raiseFault_memWords (k : FaultKind) (i : Word) (s : State) : (raiseFault k i s).memWords = s.memWords := rfl
@[simp] theorem raiseFault_counters (k : FaultKind) (i : Word) (s : State) : (raiseFault k i s).counters = s.counters := rfl

@[simp] theorem isFault_running : Status.isFault .running = false := rfl
@[simp] theorem isFault_halted : Status.isFault .halted = false := rfl
@[simp] theorem isFault_fault (k : FaultKind) (i : Word) : Status.isFault (.fault k i) = true := rfl

/-! ### Addresses and words in an updated state -/

/-- An address is in bounds exactly when its word index is below MEM_WORDS (20_memory.md R42). -/
theorem State.inBounds_iff {s : State} {a : Word} : s.inBounds a = true ↔ wordIndex a < s.memWords := by
  simp [State.inBounds]

/-- States of one size have the same addresses in bounds. -/
theorem State.inBounds_congr {s t : State} (h : t.memWords = s.memWords) (a : Word) : t.inBounds a = s.inBounds a := by
  simp [State.inBounds, h]

@[simp] theorem State.setReg_inBounds (s : State) (r : Reg) (v : Word) (a : Word) : (s.setReg r v).inBounds a = s.inBounds a :=
  State.inBounds_congr rfl a
@[simp] theorem State.setReg_wordAt (s : State) (r : Reg) (v : Word) (a : Word) : (s.setReg r v).wordAt a = s.wordAt a := rfl
@[simp] theorem State.setPc_inBounds (s : State) (v : Word) (a : Word) : (s.setPc v).inBounds a = s.inBounds a :=
  State.inBounds_congr rfl a
@[simp] theorem State.setPc_wordAt (s : State) (v : Word) (a : Word) : (s.setPc v).wordAt a = s.wordAt a := rfl
@[simp] theorem State.setFlags_inBounds (s : State) (f : Flags) (a : Word) : (s.setFlags f).inBounds a = s.inBounds a :=
  State.inBounds_congr rfl a
@[simp] theorem State.setFlags_wordAt (s : State) (f : Flags) (a : Word) : (s.setFlags f).wordAt a = s.wordAt a := rfl
@[simp] theorem State.setStatus_inBounds (s : State) (x : Status) (a : Word) : (s.setStatus x).inBounds a = s.inBounds a :=
  State.inBounds_congr rfl a
@[simp] theorem State.setStatus_wordAt (s : State) (x : Status) (a : Word) : (s.setStatus x).wordAt a = s.wordAt a := rfl
@[simp] theorem State.setCounters_inBounds (s : State) (k : Counters) (a : Word) : (s.setCounters k).inBounds a = s.inBounds a :=
  State.inBounds_congr rfl a
@[simp] theorem State.setCounters_wordAt (s : State) (k : Counters) (a : Word) : (s.setCounters k).wordAt a = s.wordAt a := rfl
@[simp] theorem countInstr_inBounds (s : State) (a : Word) : (countInstr s).inBounds a = s.inBounds a :=
  State.inBounds_congr rfl a
@[simp] theorem countInstr_wordAt (s : State) (a : Word) : (countInstr s).wordAt a = s.wordAt a := rfl
@[simp] theorem countFetch_inBounds (s : State) (a : Word) : (countFetch s).inBounds a = s.inBounds a :=
  State.inBounds_congr rfl a
@[simp] theorem countFetch_wordAt (s : State) (a : Word) : (countFetch s).wordAt a = s.wordAt a := rfl
@[simp] theorem countRead_inBounds (s : State) (a : Word) : (countRead s).inBounds a = s.inBounds a :=
  State.inBounds_congr rfl a
@[simp] theorem countRead_wordAt (s : State) (a : Word) : (countRead s).wordAt a = s.wordAt a := rfl
@[simp] theorem countWrite_inBounds (s : State) (a : Word) : (countWrite s).inBounds a = s.inBounds a :=
  State.inBounds_congr rfl a
@[simp] theorem countWrite_wordAt (s : State) (a : Word) : (countWrite s).wordAt a = s.wordAt a := rfl
@[simp] theorem countBranch_inBounds (s : State) (a : Word) : (countBranch s).inBounds a = s.inBounds a :=
  State.inBounds_congr rfl a
@[simp] theorem countBranch_wordAt (s : State) (a : Word) : (countBranch s).wordAt a = s.wordAt a := rfl
@[simp] theorem countTaken_inBounds (s : State) (a : Word) : (countTaken s).inBounds a = s.inBounds a :=
  State.inBounds_congr rfl a
@[simp] theorem countTaken_wordAt (s : State) (a : Word) : (countTaken s).wordAt a = s.wordAt a := rfl
@[simp] theorem raiseFault_inBounds (s : State) (k : FaultKind) (i : Word) (a : Word) : (raiseFault k i s).inBounds a = s.inBounds a :=
  State.inBounds_congr rfl a
@[simp] theorem raiseFault_wordAt (s : State) (k : FaultKind) (i : Word) (a : Word) : (raiseFault k i s).wordAt a = s.wordAt a := rfl
@[simp] theorem State.setMem_inBounds (s : State) (m : Memory) (a : Word) : (s.setMem m).inBounds a = s.inBounds a :=
  State.inBounds_congr rfl a
@[simp] theorem State.setMem_wordAt (s : State) (m : Memory) (a : Word) :
    (s.setMem m).wordAt a = m.readWord (wordIndex a) := rfl

/-! ### The memory primitives -/

@[simp] theorem memRead_of_inBounds {a : Word} {s : State} (h : s.inBounds a) : memRead a s = .ok (s.wordAt a) s := by
  simp only [memRead, if_pos h]

@[simp] theorem memRead_of_outside {a : Word} {s : State} (h : ¬ s.inBounds a) :
    memRead a s = .stopped (raiseFault .bounds a s) := by
  simp only [memRead, if_neg h]

/-- Everything `fetchWord` can do. -/
theorem fetchWord_eq (s : State) :
    fetchWord s = if s.inBounds s.pc then .ok (s.wordAt s.pc) ((countFetch s).setPc (s.pc + wordStep))
      else .stopped (raiseFault .bounds s.pc s) := by
  unfold fetchWord
  by_cases h : s.inBounds s.pc
  · rw [memRead_of_inBounds h, if_pos h, Access.ok_andThen]
  · rw [memRead_of_outside h, if_neg h, Access.stopped_andThen]

/-- Everything `dataRead` can do. -/
theorem dataRead_eq (a : Word) (s : State) :
    dataRead a s = if s.inBounds a then .ok (s.wordAt a) (countRead s) else .stopped (raiseFault .bounds a s) := by
  unfold dataRead
  by_cases h : s.inBounds a
  · rw [memRead_of_inBounds h, if_pos h, Access.ok_andThen]
  · rw [memRead_of_outside h, if_neg h, Access.stopped_andThen]

/-- Everything `dataWrite` can do. -/
theorem dataWrite_eq (a v : Word) (s : State) :
    dataWrite a v s =
      if s.inBounds a then .ok () (countWrite (s.setMem (s.mem.writeWord (wordIndex a) v)))
      else .stopped (raiseFault .bounds a s) := by
  unfold dataWrite memWrite
  split <;> simp

/-! ### Control transfer -/

/-- A branch not taken is counted and does nothing else. -/
@[simp] theorem branchWhen_false (d : Int) (s : State) : branchWhen false d s = countBranch s := rfl

@[simp] theorem branchWhen_true (d : Int) (s : State) :
    branchWhen true d s = countTaken ((countBranch s).setPc (s.pc + displacement d)) := rfl

@[simp] theorem branchWhen_flags (b : Bool) (d : Int) (s : State) : (branchWhen b d s).flags = s.flags := by
  cases b <;> rfl

@[simp] theorem branchWhen_status (b : Bool) (d : Int) (s : State) : (branchWhen b d s).status = s.status := by
  cases b <;> rfl

@[simp] theorem branchWhen_mem (b : Bool) (d : Int) (s : State) : (branchWhen b d s).mem = s.mem := by
  cases b <;> rfl

@[simp] theorem branchWhen_memWords (b : Bool) (d : Int) (s : State) : (branchWhen b d s).memWords = s.memWords := by
  cases b <;> rfl

@[simp] theorem branchWhen_reg_of_ne (b : Bool) (d : Int) (s : State) {q : Reg} (h : q ≠ pcReg) :
    (branchWhen b d s).reg q = s.reg q := by
  cases b <;> simp [h]

theorem branchWhen_pc (b : Bool) (d : Int) (s : State) :
    (branchWhen b d s).pc = if b then s.pc + displacement d else s.pc := by
  cases b <;> simp

theorem branchWhen_counters (b : Bool) (d : Int) (s : State) :
    (branchWhen b d s).counters =
      { s.counters with branch := s.counters.branch + 1, taken := s.counters.taken + (if b then 1 else 0) } := by
  cases b <;> simp

/-! ### Completing a step -/

theorem completeStep_of_fault {s : State} (h : s.status.isFault = true) : completeStep s = s := by
  simp [completeStep, h]

theorem completeStep_of_not_fault {s : State} (h : s.status.isFault = false) : completeStep s = countInstr s := by
  simp [completeStep, h]

@[simp] theorem completeStep_reg (s : State) (q : Reg) : (completeStep s).reg q = s.reg q := by
  unfold completeStep; split <;> rfl

@[simp] theorem completeStep_pc (s : State) : (completeStep s).pc = s.pc := completeStep_reg s pcReg

@[simp] theorem completeStep_flags (s : State) : (completeStep s).flags = s.flags := by
  unfold completeStep; split <;> rfl

@[simp] theorem completeStep_status (s : State) : (completeStep s).status = s.status := by
  unfold completeStep; split <;> rfl

@[simp] theorem completeStep_mem (s : State) : (completeStep s).mem = s.mem := by
  unfold completeStep; split <;> rfl

@[simp] theorem completeStep_memWords (s : State) : (completeStep s).memWords = s.memWords := by
  unfold completeStep; split <;> rfl

@[simp] theorem retire_next (s : State) : retire (.next s) = .next (completeStep s) := rfl

end Sys2Proof.Machine
end

