-- ==== Sys2Proof/Laws/Operands.lean ====
section
/-! SUPPORT. What resolving an operand can do, said once: it keeps flags, memory and size; it may move the PC and step its own
register; it answers a phrase whose address lies in memory, or stops on an address that does not. -/

namespace Sys2Proof

/-- The registers resolving an operand may change: the one its mode steps, and the PC where it uses an extension word. -/
def Operand.changes (o : Operand) (q : Reg) : Prop := o.steps q ∨ (q = pcReg ∧ o.extensionWords = 1)

end Sys2Proof

namespace Sys2Proof.Machine

/-- What every part of operand resolution leaves alone, and the registers outside `free`. -/
structure KeepsBut (free : Reg → Prop) (s t : State) : Prop where
  flags : t.flags = s.flags
  mem : t.mem = s.mem
  memWords : t.memWords = s.memWords
  regs : ∀ q, ¬ free q → t.reg q = s.reg q
  instr : t.counters.instr = s.counters.instr
  write : t.counters.write = s.counters.write
  branch : t.counters.branch = s.counters.branch
  taken : t.counters.taken = s.counters.taken

theorem KeepsBut.refl (free : Reg → Prop) (s : State) : KeepsBut free s s :=
  ⟨rfl, rfl, rfl, fun _ _ => rfl, rfl, rfl, rfl, rfl⟩

theorem KeepsBut.trans {free : Reg → Prop} {s t u : State} (h : KeepsBut free s t) (k : KeepsBut free t u) :
    KeepsBut free s u where
  flags := k.flags.trans h.flags
  mem := k.mem.trans h.mem
  memWords := k.memWords.trans h.memWords
  regs q hq := (k.regs q hq).trans (h.regs q hq)
  instr := k.instr.trans h.instr
  write := k.write.trans h.write
  branch := k.branch.trans h.branch
  taken := k.taken.trans h.taken

theorem KeepsBut.weaken {free free' : Reg → Prop} {s t : State} (h : KeepsBut free s t) (w : ∀ q, free q → free' q) :
    KeepsBut free' s t :=
  { h with regs := fun q hq => h.regs q fun hf => hq (w q hf) }

theorem KeepsBut.setReg {free : Reg → Prop} (s : State) {r : Reg} (v : Word) (h : free r) :
    KeepsBut free s (s.setReg r v) where
  flags := rfl
  mem := rfl
  memWords := rfl
  regs _ hq := State.setReg_reg_of_ne s v fun e => hq (e ▸ h)
  instr := rfl
  write := rfl
  branch := rfl
  taken := rfl

theorem KeepsBut.countRead (free : Reg → Prop) (s : State) : KeepsBut free s (countRead s) :=
  ⟨rfl, rfl, rfl, fun _ _ => rfl, rfl, rfl, rfl, rfl⟩

theorem KeepsBut.countFetch (free : Reg → Prop) (s : State) : KeepsBut free s (countFetch s) :=
  ⟨rfl, rfl, rfl, fun _ _ => rfl, rfl, rfl, rfl, rfl⟩

theorem KeepsBut.raiseFault (free : Reg → Prop) (k : FaultKind) (i : Word) (s : State) :
    KeepsBut free s (raiseFault k i s) :=
  ⟨rfl, rfl, rfl, fun _ _ => rfl, rfl, rfl, rfl, rfl⟩

/-- What an access that ended well says: it kept the rest and the status. -/
def EndsWell (free : Reg → Prop) (s t : State) : Prop := KeepsBut free s t ∧ t.status = s.status

/-- What an access that was stopped says: it kept the rest, and the recorded address lies outside memory. -/
def StopsOutside (free : Reg → Prop) (s t : State) : Prop :=
  KeepsBut free s t ∧ ∃ a, t.status = .fault .bounds a ∧ ¬ s.inBounds a

/-- An access that keeps the rest whichever way it ends, and whose value meets `good`. -/
def Behaves {α : Type} (free : Reg → Prop) (good : α → Prop) (s : State) (x : Access α) : Prop :=
  match x with
  | .ok v t => EndsWell free s t ∧ good v
  | .stopped t => StopsOutside free s t

/-- Behaviour composes: the second part is looked at in any state the first can leave. -/
theorem Behaves.andThen {α β : Type} {free : Reg → Prop} {good : α → Prop} {good' : β → Prop} {s : State} {x : Access α}
    {f : α → State → Access β} (hx : Behaves free good s x)
    (hf : ∀ v t, EndsWell free s t → good v → Behaves free good' t (f v t)) :
    Behaves free good' s (x.andThen f) := by
  cases x with
  | stopped t => exact hx
  | ok v t =>
    obtain ⟨⟨hk, hs⟩, hv⟩ := hx
    have hf := hf v t ⟨hk, hs⟩ hv
    rw [Access.ok_andThen]
    cases hfv : f v t with
    | ok w u =>
      rw [hfv] at hf
      exact ⟨⟨hk.trans hf.1.1, hf.1.2.trans hs⟩, hf.2⟩
    | stopped u =>
      rw [hfv] at hf
      obtain ⟨ku, a, ha, hb⟩ := hf
      exact ⟨hk.trans ku, a, ha, by rwa [← State.inBounds_congr hk.memWords]⟩

/-- A change of the state before an access that behaves. -/
theorem Behaves.after {α : Type} {free : Reg → Prop} {good : α → Prop} {s t : State} {x : Access α}
    (h : EndsWell free s t) (hx : Behaves free good t x) : Behaves free good s x := by
  obtain ⟨hk, hs⟩ := h
  cases x with
  | ok v u => exact ⟨⟨hk.trans hx.1.1, hx.1.2.trans hs⟩, hx.2⟩
  | stopped u =>
    obtain ⟨ku, a, ha, hb⟩ := hx
    exact ⟨hk.trans ku, a, ha, by rwa [← State.inBounds_congr hk.memWords]⟩

/-- A plain answer behaves. -/
theorem Behaves.ok {α : Type} {free : Reg → Prop} {good : α → Prop} {s : State} {v : α} (h : good v) :
    Behaves free good s (.ok v s) := ⟨⟨.refl free s, rfl⟩, h⟩

/-- A step of a register is a change that keeps the rest. -/
theorem EndsWell.setReg {free : Reg → Prop} (s : State) {r : Reg} (v : Word) (h : free r) :
    EndsWell free s (s.setReg r v) := ⟨.setReg s v h, rfl⟩

/-- An instruction-word fetch changes the PC and its counter only. -/
theorem fetchWord_behaves {free : Reg → Prop} (s : State) (h : free pcReg) :
    Behaves free (fun _ => True) s (fetchWord s) := by
  rw [fetchWord_eq]
  split
  · exact ⟨⟨(KeepsBut.countFetch free s).trans (.setReg _ _ h), rfl⟩, trivial⟩
  · next hb => exact ⟨.raiseFault free _ _ s, _, rfl, hb⟩

/-- A data read changes its counter only, and reads inside memory. -/
theorem dataRead_behaves (free : Reg → Prop) (a : Word) (s : State) :
    Behaves free (fun _ => s.inBounds a) s (dataRead a s) := by
  rw [dataRead_eq]
  split
  · next hb => exact ⟨⟨.countRead free s, rfl⟩, hb⟩
  · next hb => exact ⟨.raiseFault free _ _ s, _, rfl, hb⟩

/-- The phrase's effective address, if it has one, lies in a memory of `n` words. -/
def Phrase.inside (n : Nat) (p : Phrase) : Prop := ∀ ea, p.ea = some ea → wordIndex ea < n

theorem operandAt_behaves (free : Reg → Prop) {n : Nat} (ea : Word) (s : State) (hn : s.memWords = n) :
    Behaves free (Phrase.inside n) s (operandAt ea s) :=
  (dataRead_behaves free ea s).andThen fun v t _ hb =>
    .ok fun a ha => by
      have : ea = a := by simpa [Phrase.ea] using ha
      exact this ▸ hn ▸ State.inBounds_iff.mp hb

/-- Everything a caller needs of `resolve`: flags, memory and size are kept, only `o.changes` registers move, the status is kept
or records an address outside memory, and the phrase's address lies in memory. -/
theorem resolve_behaves (o : Operand) (s : State) :
    Behaves o.changes (Phrase.inside s.memWords) s (resolve o s) := by
  obtain ⟨m, r⟩ := o
  cases m with
  | register => exact .ok fun ea h => by simp [Phrase.ea] at h
  | indirect => exact operandAt_behaves _ _ s rfl
  | autoInc =>
    simp only [resolve]
    split
    · next hr =>
      have hf : Operand.changes ⟨.autoInc, r⟩ pcReg := .inr ⟨rfl, by simp [Operand.extensionWords, hr]⟩
      unfold resolveImmediate
      rw [fetchWord_eq]
      split
      · next hb =>
        exact ⟨⟨(KeepsBut.countFetch _ s).trans (.setReg _ _ hf), rfl⟩, fun ea h => by
          have : s.pc = ea := by simpa [Phrase.ea] using h
          exact this ▸ State.inBounds_iff.mp hb⟩
      · next hb => exact ⟨.raiseFault _ _ _ s, _, rfl, hb⟩
    · exact (operandAt_behaves _ _ s rfl).andThen fun p t _ hp => .after (.setReg t _ (.inl ⟨rfl, by simp⟩)) (.ok hp)
  | autoIncDeferred =>
    simp only [resolve]
    split
    · next hr =>
      exact (fetchWord_behaves s (.inr ⟨rfl, by simp [Operand.extensionWords, hr]⟩)).andThen fun ea t ht _ =>
        operandAt_behaves _ _ t ht.1.memWords
    · exact (dataRead_behaves _ _ s).andThen fun ea t ht _ =>
        .after (.setReg t _ (.inl ⟨rfl, by simp⟩)) (operandAt_behaves _ _ _ ht.1.memWords)
  | autoDec => exact .after (.setReg s _ (.inl ⟨rfl, by simp⟩)) (operandAt_behaves _ _ _ rfl)
  | autoDecDeferred =>
    exact .after (.setReg s _ (.inl ⟨rfl, by simp⟩)) ((dataRead_behaves _ _ _).andThen fun ea t ht _ =>
      operandAt_behaves _ _ t (ht.1.memWords.trans rfl))
  | index =>
    exact (fetchWord_behaves s (.inr ⟨rfl, rfl⟩)).andThen fun x t ht _ => operandAt_behaves _ _ t ht.1.memWords
  | indexDeferred =>
    exact (fetchWord_behaves s (.inr ⟨rfl, rfl⟩)).andThen fun x t ht _ =>
      (dataRead_behaves _ _ t).andThen fun ea u hu _ => operandAt_behaves _ _ u (hu.1.memWords.trans ht.1.memWords)

/-- `resolve` that ends well. -/
theorem resolve_ok {o : Operand} {s t : State} {p : Phrase} (h : resolve o s = .ok p t) :
    KeepsBut o.changes s t ∧ t.status = s.status ∧ ∀ ea, p.ea = some ea → wordIndex ea < s.memWords := by
  have := resolve_behaves o s
  rw [h] at this
  exact ⟨this.1.1, this.1.2, this.2⟩

/-- `resolve` that a fault stops. -/
theorem resolve_stopped {o : Operand} {s t : State} (h : resolve o s = .stopped t) :
    KeepsBut o.changes s t ∧ ∃ a, t.status = .fault .bounds a ∧ ¬ s.inBounds a := by
  have := resolve_behaves o s
  rw [h] at this
  exact this

/-- Everything writeback can do after a resolution: it never faults (40_operand_resolver.md R93). -/
theorem update_of_inside {p : Phrase} {s : State} (v : Word) (h : ∀ ea, p.ea = some ea → wordIndex ea < s.memWords) :
    update p v s = .ok () (match p.place with
      | .register r => s.setReg r v
      | .memory ea => countWrite (s.setMem (s.mem.writeWord (wordIndex ea) v))) := by
  obtain ⟨pl, x⟩ := p
  cases pl with
  | register r => rfl
  | memory ea =>
    show dataWrite ea v s = _
    rw [dataWrite_eq, if_pos (State.inBounds_iff.mpr (h ea rfl))]

end Sys2Proof.Machine
end

