-- ==== Sys2Proof/Laws/Instructions.lean ====
section
/-! SUPPORT. What writing a result back does, and each handler over resolved operands, said once. -/

namespace Sys2Proof.Machine

/-- Writing a result back through a phrase that lies in memory always ends well, and does what `writtenBack` says. -/
theorem writeResult_of_inside {p : Phrase} {u : State} (res : Word) (f : Flags)
    (h : ∀ ea, p.ea = some ea → wordIndex ea < u.memWords) :
    ∃ t, writeResult p res f u = .ok () t ∧ writtenBack p res f u t := by
  unfold writeResult
  rw [update_of_inside res h, Access.ok_andThen]
  refine ⟨_, rfl, ?_⟩
  obtain ⟨pl, x⟩ := p
  cases pl with
  | register r => exact ⟨rfl, rfl, rfl, by simp, fun q hq => by simp [hq], fun k => rfl, rfl⟩
  | memory ea =>
    refine ⟨rfl, rfl, rfl, by simp [State.wordAt], fun q => rfl, fun k hk => ?_, rfl⟩
    exact Memory.readByte_writeWord_outside _ _ (fun e => hk (.inl e)) fun e => hk (.inr e)

/-- Both operands of a pair, resolved: the source first, the destination in the state it left. -/
theorem resolvePair_eq_ok {src dst : Operand} {s u : State} {pq : Phrase × Phrase} :
    resolvePair src dst s = .ok pq u ↔ ∃ t, resolve src s = .ok pq.1 t ∧ resolve dst t = .ok pq.2 u := by
  unfold resolvePair
  obtain ⟨p, q⟩ := pq
  cases h : resolve src s with
  | stopped t => simp
  | ok p' t =>
    cases h' : resolve dst t with
    | stopped u' => simp_all
    | ok q' u' =>
      simp only [Access.ok_andThen, h', Access.ok.injEq, Prod.mk.injEq]
      constructor
      · rintro ⟨⟨rfl, rfl⟩, rfl⟩
        exact ⟨t, ⟨rfl, rfl⟩, h'⟩
      · rintro ⟨t', ⟨rfl, rfl⟩, h2⟩
        rw [h'] at h2
        cases h2
        exact ⟨⟨rfl, rfl⟩, rfl⟩

/-- A pair is stopped by the first of its operands that is. -/
theorem resolvePair_eq_stopped {src dst : Operand} {s u : State} :
    resolvePair src dst s = .stopped u ↔
      resolve src s = .stopped u ∨ ∃ p t, resolve src s = .ok p t ∧ resolve dst t = .stopped u := by
  unfold resolvePair
  cases h : resolve src s with
  | stopped t => simp
  | ok p' t =>
    cases h' : resolve dst t with
    | stopped u' => simp [h']
    | ok q' u' => simp [h']

end Sys2Proof.Machine
end

