-- ==== Sys2Proof/Laws/PerInstr.lean ====
section
/-! SUPPORT. One lemma for each instruction: its encoding selects its own row of the opcode map (30_encoding.md R69). -/

namespace Sys2Proof.Laws.SelectsItsRow

/-- The row of the opcode map that bears the instruction's mnemonic selects the word the instruction is encoded to. -/
def Statement (i : Instr) : Prop :=
  i.wellFormed = true → ∃ row ∈ opcodeMap, row.mnemonic = i.mnemonic ∧ row.selects (encode i) = true

/-- Under its format's mask a word of format D is its opcode. -/
theorem formatD_masked (op : BitVec 4) (src dst : Operand) : formatD op src dst &&& 0xF000#16 = op ++ 0#6 ++ 0#6 := by
  have hm : 0xF000#16 = 0xF#4 ++ 0#6 ++ 0#6 := rfl
  rw [hm, formatD, BitVec.and_append, BitVec.and_append]
  simp [show op &&& 0xF#4 = op from BitVec.and_allOnes]

theorem formatS_masked (op : BitVec 10) (dst : Operand) : formatS op dst &&& 0xFFC0#16 = op ++ 0#6 := by
  have hm : 0xFFC0#16 = 0x3FF#10 ++ 0#6 := rfl
  rw [hm, formatS, BitVec.and_append]
  simp [show op &&& 0x3FF#10 = op from BitVec.and_allOnes]

theorem formatB_masked (op : BitVec 8) (off : Int) : formatB op off &&& 0xFF00#16 = op ++ 0#8 := by
  have hm : 0xFF00#16 = 0xFF#8 ++ 0#8 := rfl
  rw [hm, formatB, BitVec.and_append]
  simp [show op &&& 0xFF#8 = op from BitVec.and_allOnes]

theorem formatR_masked (op : BitVec 7) (r : Reg) (off : Nat) : formatR op r off &&& 0xFE00#16 = op ++ 0#3 ++ 0#6 := by
  have hm : 0xFE00#16 = 0x7F#7 ++ 0#3 ++ 0#6 := rfl
  rw [hm, formatR, BitVec.and_append, BitVec.and_append]
  simp [show op &&& 0x7F#7 = op from BitVec.and_allOnes]

theorem mov (src dst : Operand) : Statement (.mov src dst) := fun _ =>
  ⟨⟨"MOV", 0x1000#16, 0xF000#16⟩, by decide, rfl, decide_eq_true (formatD_masked 1#4 src dst)⟩
theorem cmp (src dst : Operand) : Statement (.cmp src dst) := fun _ =>
  ⟨⟨"CMP", 0x2000#16, 0xF000#16⟩, by decide, rfl, decide_eq_true (formatD_masked 2#4 src dst)⟩
theorem add (src dst : Operand) : Statement (.add src dst) := fun _ =>
  ⟨⟨"ADD", 0x6000#16, 0xF000#16⟩, by decide, rfl, decide_eq_true (formatD_masked 6#4 src dst)⟩
theorem sub (src dst : Operand) : Statement (.sub src dst) := fun _ =>
  ⟨⟨"SUB", 0xE000#16, 0xF000#16⟩, by decide, rfl, decide_eq_true (formatD_masked 14#4 src dst)⟩
theorem sob (r : Reg) (off : Nat) : Statement (.sob r off) := fun _ =>
  ⟨⟨"SOB", 0x7E00#16, 0xFE00#16⟩, by decide, rfl, decide_eq_true (formatR_masked 0o77#7 r off)⟩
theorem br (off : Int) : Statement (.br off) := fun _ =>
  ⟨⟨"BR", 0x0100#16, 0xFF00#16⟩, by decide, rfl, decide_eq_true (formatB_masked 1#8 off)⟩
theorem bne (off : Int) : Statement (.bne off) := fun _ =>
  ⟨⟨"BNE", 0x0200#16, 0xFF00#16⟩, by decide, rfl, decide_eq_true (formatB_masked 2#8 off)⟩
theorem beq (off : Int) : Statement (.beq off) := fun _ =>
  ⟨⟨"BEQ", 0x0300#16, 0xFF00#16⟩, by decide, rfl, decide_eq_true (formatB_masked 3#8 off)⟩
theorem asr (dst : Operand) : Statement (.asr dst) := fun _ =>
  ⟨⟨"ASR", 0x0C80#16, 0xFFC0#16⟩, by decide, rfl, decide_eq_true (formatS_masked 0o62#10 dst)⟩
theorem asl (dst : Operand) : Statement (.asl dst) := fun _ =>
  ⟨⟨"ASL", 0x0CC0#16, 0xFFC0#16⟩, by decide, rfl, decide_eq_true (formatS_masked 0o63#10 dst)⟩
theorem halt : Statement .halt := fun _ =>
  ⟨⟨"HALT", 0x0000#16, 0xFFFF#16⟩, by decide, rfl, by decide⟩

end Sys2Proof.Laws.SelectsItsRow
end

