-- ==== Sys2Proof/Tests/Slice0.lean ====
section
/-! SUPPORT. The model's own tests. The expected results are those of spec/95_test_vectors.md (the vector's id stands in each
comment), or words written out from the formats of spec/30_encoding.md; and one witness for the hypotheses of each statement. -/

open Sys2Proof
open Sys2Proof.Machine

namespace Sys2Proof.Tests

/-! ### WellFormed: one ill-formed term for each check -/

theorem test_branch_offset_below_field_refused : Instr.wellFormed (.br (-129)) = false := by decide
theorem test_branch_offset_above_field_refused : Instr.wellFormed (.beq 128) = false := by decide
theorem test_bne_offset_above_field_refused : Instr.wellFormed (.bne 128) = false := by decide
theorem test_sob_offset_above_field_refused : Instr.wellFormed (.sob 0 64) = false := by decide
theorem test_field_ends_accepted :
    Instr.wellFormed (.br (-128)) = true ∧ Instr.wellFormed (.bne 127) = true ∧ Instr.wellFormed (.sob 7 63) = true := by decide

/-! ### Decoding: a word written out from the formats for each constructor, and words no tier takes -/

/-- MOV 6,1 7,2: op4 0001, fields 110 001 111 010 (016172 of section 2.1). -/
theorem test_decode_mov : decodeWord 0b0001_110_001_111_010#16 = some (.mov ⟨.index, 1⟩ ⟨.indexDeferred, 2⟩) := by decide
/-- CMP 2,7 3,7: op4 0010 (022737 of section 2.1). -/
theorem test_decode_cmp : decodeWord 0b0010_010_111_011_111#16 = some (.cmp ⟨.autoInc, 7⟩ ⟨.autoIncDeferred, 7⟩) := by decide
/-- ADD 2,7 0,0: op4 0110 (062700 of section 2.1). -/
theorem test_decode_add : decodeWord 0b0110_010_111_000_000#16 = some (.add ⟨.autoInc, 7⟩ ⟨.register, 0⟩) := by decide
/-- SUB 4,6 0,5: op4 1110 (164605 of section 2.1). -/
theorem test_decode_sub : decodeWord 0b1110_100_110_000_101#16 = some (.sub ⟨.autoDec, 6⟩ ⟨.register, 5⟩) := by decide
/-- SOB R3, 5 words: op7 0111111, register 011, off6 000101 (077305 of section 2.1). -/
theorem test_decode_sob : decodeWord 0b0111111_011_000101#16 = some (.sob 3 5) := by decide
/-- SOB's offset is unsigned: 077777 of section 2.1. -/
theorem test_decode_sob_unsigned : decodeWord 0o077777#16 = some (.sob 7 63) := by decide
/-- BR +1: op8 00000001, off8 00000001 (000401 of section 2.1). -/
theorem test_decode_br : decodeWord 0b00000001_00000001#16 = some (.br 1) := by decide
/-- The branch offset is signed: 000577 and 000600 of section 2.1. -/
theorem test_decode_br_signed : decodeWord 0o000577#16 = some (.br 127) ∧ decodeWord 0o000600#16 = some (.br (-128)) := by decide
/-- BNE -2: op8 00000010, off8 11111110 (001376 of section 2.1). -/
theorem test_decode_bne : decodeWord 0b00000010_11111110#16 = some (.bne (-2)) := by decide
/-- BEQ -1: op8 00000011, off8 11111111 (001777 of section 2.1). -/
theorem test_decode_beq : decodeWord 0b00000011_11111111#16 = some (.beq (-1)) := by decide
/-- ASR 6,7: op10 0000110010 (006267 of section 2.1). -/
theorem test_decode_asr : decodeWord 0b0000110010_110_111#16 = some (.asr ⟨.index, 7⟩) := by decide
/-- ASL 3,7: op10 0000110011 (006337 of section 2.1). -/
theorem test_decode_asl : decodeWord 0b0000110011_011_111#16 = some (.asl ⟨.autoIncDeferred, 7⟩) := by decide
/-- HALT is the all-zero word alone (section 2.1). -/
theorem test_decode_halt : decodeWord 0#16 = some .halt ∧ decodeWord 1#16 = none := by decide
/-- The two ends of each invalid range (section 2.1). -/
theorem test_invalid_range_ends :
    [0o000001#16, 0o000377#16, 0o002000#16, 0o006177#16, 0o006400#16, 0o007777#16, 0o030000#16, 0o057777#16, 0o070000#16,
      0o076777#16, 0o100000#16, 0o157777#16, 0o170000#16, 0o177777#16].all (fun w => decodeWord w == none) = true := by decide
/-- Bytes: the low byte first; the extension words are left over; too few bytes and an invalid word are refused by name. -/
theorem test_decode_bytes :
    decode [0xC0#8, 0x15#8, 0x53#8, 0x00#8] = .ok (.mov ⟨.autoInc, 7⟩ ⟨.register, 0⟩, [0x53#8, 0x00#8]) ∧
    decode [0xC0#8] = .error .truncated ∧ decode [0xFF#8, 0xFF#8] = .error (.invalidWord 0xFFFF#16) := ⟨rfl, rfl, rfl⟩
/-- The host's numbering: the first word in bits 15 to 0, the extension words above. -/
theorem test_decode_table_word :
    decodeTableWord 16 0o012700 = some (.mov ⟨.autoInc, 7⟩ ⟨.register, 0⟩) ∧
    decodeTableWord 32 (0o012700 + 0o123 * 65536) = some (.mov ⟨.autoInc, 7⟩ ⟨.register, 0⟩) ∧
    decodeTableWord 16 0o000001 = none := by decide
/-- The static lengths of 012700, 016172 and 006300 (30_encoding.md R68). -/
theorem test_lengths :
    Instr.lengthWords (.mov ⟨.autoInc, 7⟩ ⟨.register, 0⟩) = 2 ∧ Instr.lengthWords (.mov ⟨.index, 1⟩ ⟨.indexDeferred, 2⟩) = 3 ∧
    Instr.lengthWords (.asl ⟨.register, 0⟩) = 1 := by decide

/-! ### One step: the unit states of section 0 of the vectors -/

/-- A unit state: the words at 001000, PC 001000, MEM_WORDS 4096, the words listed in `cells`, all else 0. -/
def unit (words : List Word) (regs : Vector Word 7) (cells : List (Word × Word)) (f : Flags) : State where
  regs := #v[regs[0], regs[1], regs[2], regs[3], regs[4], regs[5], regs[6], 0o001000#16]
  flags := f
  counters := Counters.zero
  status := .running
  mem := cells.foldl (fun m c => m.writeWord (wordIndex c.1) c.2) (Memory.placeImage [] 256 words)
  memWords := 4096

/-- The state after one step. -/
def after (s : State) : Option State :=
  match step s with
  | .next t => some t
  | .fault _ => none
  | .refused _ => none

/-- N, Z, V, C from their four bits. -/
def nzvc (n z v c : Nat) : Flags := ⟨n == 1, z == 1, v == 1, c == 1⟩

/-- Vector M2: MOV R1,R0. -/
theorem test_mov_flags :
    (after (unit [0o010100] #v[0, 0o100000, 0, 0, 0, 0, 0] [] (nzvc 0 1 1 1))).map (fun t => (t.reg 0, t.pc, t.flags)) =
      some (0o100000, 0o001002, nzvc 1 0 0 0) := by decide
/-- Vector W6r: MOV #7 to a relative destination: two extension words, the source's first. -/
theorem test_mov_relative :
    (after (unit [0o012767, 0o000007, 0o000020] #v[0, 0, 0, 0, 0, 0, 0] [] (nzvc 0 0 0 0))).map
      (fun t => (t.wordAt 0o001026, t.pc, t.counters)) = some (0o000007, 0o001006, ⟨1, 3, 1, 1, 0, 0⟩) := by decide
/-- Vector CP1: CMP R1,R0 is R0 - R1. -/
theorem test_cmp_destination_minus_source :
    (after (unit [0o020100] #v[0, 1, 0, 0, 0, 0, 0] [] (nzvc 1 1 1 1))).map (fun t => (t.reg 0, t.reg 1, t.flags)) =
      some (0, 1, nzvc 1 0 0 1) := by decide
/-- Vector CP6: CMP (R1)+,(R2)+ steps both registers and stores nothing. -/
theorem test_cmp_steps_registers :
    (after (unit [0o022122] #v[0, 0o100, 0o200, 0, 0, 0, 0] [(0o100, 0o11), (0o200, 4)] (nzvc 0 0 0 0))).map
      (fun t => (t.reg 1, t.reg 2, t.flags, t.counters)) =
      some (0o102, 0o202, nzvc 1 0 0 1, ⟨1, 1, 2, 0, 0, 0⟩) := by decide
/-- Vector AD3: ADD R1,R0. -/
theorem test_add_overflow_and_carry :
    (after (unit [0o060100] #v[0o100000, 0o100000, 0, 0, 0, 0, 0] [] (nzvc 1 1 1 1))).map (fun t => (t.reg 0, t.flags)) =
      some (0, nzvc 0 1 1 1) := by decide
/-- Vector A7r: ADD through relative deferred. -/
theorem test_add_relative_deferred :
    (after (unit [0o067700, 0o10] #v[1, 0, 0, 0, 0, 0, 0] [(0o1014, 0o40), (0o40, 4)] (nzvc 0 0 0 0))).map
      (fun t => (t.reg 0, t.pc, t.counters)) = some (5, 0o1004, ⟨1, 2, 2, 0, 0, 0⟩) := by decide
/-- Vector SB3: SUB R1,R0. -/
theorem test_sub_overflow_and_borrow :
    (after (unit [0o160100] #v[0o077777, 0o177777, 0, 0, 0, 0, 0] [] (nzvc 1 1 1 1))).map (fun t => (t.reg 0, t.flags)) =
      some (0o100000, nzvc 1 0 1 1) := by decide
/-- Vector SBm: SUB #1,@#100. -/
theorem test_sub_memory :
    (after (unit [0o162737, 1, 0o100] #v[0, 0, 0, 0, 0, 0, 0] [] (nzvc 0 0 0 0))).map
      (fun t => (t.wordAt 0o100, t.pc, t.flags, t.counters)) =
      some (0o177777, 0o1006, nzvc 1 0 0 1, ⟨1, 3, 1, 1, 0, 0⟩) := by decide
/-- Vector SLd: ASL -(R1): the register steps back once. -/
theorem test_asl_autodecrement :
    (after (unit [0o006341] #v[0, 0o102, 0, 0, 0, 0, 0] [(0o100, 0o040001)] (nzvc 0 0 0 0))).map
      (fun t => (t.reg 1, t.wordAt 0o100, t.flags)) = some (0o100, 0o100002, nzvc 1 0 1 0) := by decide
/-- Vector SL3: ASL R0. -/
theorem test_asl_carry_out :
    (after (unit [0o006300] #v[0o100000, 0, 0, 0, 0, 0, 0] [] (nzvc 1 1 1 1))).map (fun t => (t.reg 0, t.flags)) =
      some (0, nzvc 0 1 1 1) := by decide
/-- Vector SR5: ASR R0 keeps the sign. -/
theorem test_asr_keeps_sign :
    (after (unit [0o006200] #v[0o100001, 0, 0, 0, 0, 0, 0] [] (nzvc 1 1 1 1))).map (fun t => (t.reg 0, t.flags)) =
      some (0o140000, nzvc 1 0 0 1) := by decide
/-- Vector SRx: ASR 2(R1). -/
theorem test_asr_index :
    (after (unit [0o006261, 2] #v[0, 0o100, 0, 0, 0, 0, 0] [(0o102, 6)] (nzvc 0 0 0 0))).map
      (fun t => (t.wordAt 0o102, t.pc, t.counters)) = some (3, 0o1004, ⟨1, 2, 1, 1, 0, 0⟩) := by decide
/-- Vectors BQ3 and BQ2: BEQ taken and not taken. -/
theorem test_beq :
    (after (unit [0o001776] #v[0, 0, 0, 0, 0, 0, 0] [] (nzvc 1 1 1 1))).map (fun t => (t.pc, t.flags, t.counters)) =
      some (0o000776, nzvc 1 1 1 1, ⟨1, 1, 0, 0, 1, 1⟩) ∧
    (after (unit [0o001402] #v[0, 0, 0, 0, 0, 0, 0] [] (nzvc 0 0 0 0))).map (fun t => (t.pc, t.counters)) =
      some (0o001002, ⟨1, 1, 0, 0, 1, 0⟩) := by decide
/-- Vector BN3: BNE, the most negative offset. -/
theorem test_bne_backward :
    (after (unit [0o001200] #v[0, 0, 0, 0, 0, 0, 0] [] (nzvc 0 0 0 0))).map (fun t => (t.pc, t.counters)) =
      some (0o000402, ⟨1, 1, 0, 0, 1, 1⟩) := by decide
/-- Vector BR1: BR, the greatest offset. -/
theorem test_br_forward :
    (after (unit [0o000577] #v[0, 0, 0, 0, 0, 0, 0] [] (nzvc 1 1 1 1))).map (fun t => (t.pc, t.flags)) =
      some (0o001400, nzvc 1 1 1 1) := by decide
/-- Vector SO6: SOB, the greatest offset, unsigned. -/
theorem test_sob_backward :
    (after (unit [0o077077] #v[2, 0, 0, 0, 0, 0, 0] [] (nzvc 0 0 0 0))).map (fun t => (t.reg 0, t.pc, t.counters)) =
      some (1, 0o000604, ⟨1, 1, 0, 0, 1, 1⟩) := by decide
/-- Vector SO8: SOB R7. -/
theorem test_sob_pc :
    (after (unit [0o077701] #v[0, 0, 0, 0, 0, 0, 0] [] (nzvc 0 0 0 0))).map (fun t => (t.pc, t.counters)) =
      some (0o000777, ⟨1, 1, 0, 0, 1, 1⟩) := by decide
/-- Vector H1: HALT; and the halted machine has no step. -/
theorem test_halt :
    (after (unit [0] #v[5, 0, 0, 0, 0, 0, 0] [] (nzvc 1 0 1 1))).map (fun t => (t.status, t.pc, t.flags, t.counters, after t)) =
      some (.halted, 0o001002, nzvc 1 0 1 1, ⟨1, 1, 0, 0, 0, 0⟩, none) := by decide
/-- Vector F10: a decode fault. -/
theorem test_decode_fault :
    (after (unit [0o006400] #v[0, 0, 0, 0, 0, 0, 0] [] (nzvc 0 0 0 0))).map (fun t => (t.status, t.pc, t.counters)) =
      some (.fault .decode 0o006400, 0o001002, ⟨0, 1, 0, 0, 0, 0⟩) := by decide
/-- Vectors FB1 and FB2: bounds faults, with the effects that stand before them. -/
theorem test_bounds_fault :
    (after (unit [0o013700, 0o020000] #v[5, 0, 0, 0, 0, 0, 0] [] (nzvc 1 1 1 1))).map
      (fun t => (t.status, t.reg 0, t.pc, t.flags, t.counters)) =
      some (.fault .bounds 0o020000, 5, 0o001004, nzvc 1 1 1 1, ⟨0, 2, 0, 0, 0, 0⟩) ∧
    (after (unit [0o012741, 1] #v[0, 0, 0, 0, 0, 0, 0] [] (nzvc 0 0 0 0))).map (fun t => (t.status, t.reg 1, t.counters)) =
      some (.fault .bounds 0o177776, 0o177776, ⟨0, 2, 0, 0, 0, 0⟩) := by decide

/-- From reset the host's word is what the next step runs (program P1's first instruction, 012700 000123, and 000123 moved). -/
theorem test_with_fetch_word :
    (after (State.reset.withFetchWord 32 (0o012700 + 0o123 * 65536))).map (fun t => (t.reg 0, t.pc, t.status)) =
      some (0o123, 4, .running) := by decide
/-- A launch of program P1's image (section 3). -/
theorem test_launch :
    (match launch 3 [0o012700, 0o123, 0] with
      | .next s => (after s).bind fun t => (after t).map fun u => (u.reg 0, u.flags, u.status)
      | .fault _ => none
      | .refused _ => none) = some (0o123, nzvc 0 0 0 0, .halted) := by decide
/-- Storing the value an unlisted byte reads as takes the cell out. -/
theorem test_memory_canonical :
    Memory.writeWord [] 3 0x0102#16 = [(6, 0x02#8), (7, 0x01#8)] ∧
    (Memory.writeWord [] 3 0x0102#16).writeWord 3 0x0100#16 = [(7, 0x01#8)] ∧
    ((Memory.writeWord [] 3 0x0102#16).writeWord 1 5#16).wf := by decide

/-! ### Witnesses: for each statement with hypotheses, states and operands that meet them, clause by clause at the bounds -/

/-- A machine of 8 words (addresses 0 to 15): R1, R2, the PC, the first word and the last word as given, all else 0. -/
def probe (r1 r2 pc m0 m7 : Word) : State where
  regs := #v[0, r1, r2, 0, 0, 0, 0, pc]
  flags := nzvc 0 0 0 0
  counters := Counters.zero
  status := .running
  mem := (Memory.writeWord [] 0 m0).writeWord 7 m7
  memWords := 8

theorem witness_DecodeOfEncodeIsTheInstruction :
    Instr.wellFormed (.mov ⟨.indexDeferred, 7⟩ ⟨.register, 0⟩) = true ∧ Instr.wellFormed (.sob 7 63) = true ∧
    Instr.wellFormed (.beq (-128)) = true ∧ Instr.wellFormed (.bne 127) = true := by decide
theorem witness_EncodeOfDecodeIsTheWord :
    decodeWord 0o167777#16 = some (.sub ⟨.indexDeferred, 7⟩ ⟨.indexDeferred, 7⟩) := by decide
theorem witness_OpcodePatternsAreDisjoint :
    (⟨"SOB", 0x7E00#16, 0xFE00#16⟩ : OpcodeRow) ∈ opcodeMap ∧
    OpcodeRow.selects ⟨"SOB", 0x7E00#16, 0xFE00#16⟩ 0o077777#16 = true := by decide
theorem witness_StepRunsTheDecodedInstruction :
    (probe 0 0 14 0 0o012701).status = .running ∧ (probe 0 0 14 0 0o012701).inBounds (probe 0 0 14 0 0o012701).pc = true ∧
    decodeWord ((probe 0 0 14 0 0o012701).wordAt (probe 0 0 14 0 0o012701).pc) =
      some (.mov ⟨.autoInc, 7⟩ ⟨.register, 1⟩) := by decide
theorem witness_InvalidWordRaisesDecodeFault :
    (probe 0 0 15 0 1).inBounds (probe 0 0 15 0 1).pc = true ∧
    decodeWord ((probe 0 0 15 0 1).wordAt (probe 0 0 15 0 1).pc) = none ∧
    (after (probe 0 0 15 0 1)).map State.status = some (.fault .decode 1) := by decide
theorem witness_PcOutsideMemoryRaisesBoundsFault :
    (probe 0 0 16 0 0).status = .running ∧ ¬ (probe 0 0 16 0 0).inBounds (probe 0 0 16 0 0).pc = true := by decide
/-- At the fetch of the first word, at the fetch of an extension word and at a data read. -/
theorem witness_RecordedBoundsFaultIsOutsideMemory :
    (after (probe 0 0 16 0 0)).map State.status = some (.fault .bounds 16) ∧
    (after (probe 0 0 14 0 0o012701)).map State.status = some (.fault .bounds 16) ∧
    (after (probe 16 0 0 0o011102 0)).map State.status = some (.fault .bounds 16) := by decide
theorem witness_MachineStepsExactlyWhileRunning :
    (after (probe 0 0 0 0 0)).isSome = true ∧ ((probe 0 0 0 0 0).setStatus .halted).status = .halted ∧
    ((probe 0 0 0 0 0).setStatus (.fault .bounds 16)).status = .fault .bounds 16 := by decide

theorem probe_inv : (probe 14 0 0 0o011102 0o177777).Inv where
  memCanonical := by decide
  memInside := by unfold State.memInside; decide
  sizeLegal := by unfold State.sizeLegal; decide
  notNegativeZero := by decide
  faultIsTrue := trivial
  countersFit := by unfold State.countersFit; decide

/-- A running state that meets the invariant and has a next state; so for every statement about steps. -/
theorem witness_StepKeepsTheInvariant :
    ∃ s t, s.Inv ∧ step s = .next t ∧ t.reg 2 = 0o177777 ∧ t.flags = nzvc 1 0 0 0 :=
  ⟨probe 14 0 0 0o011102 0o177777, _, probe_inv, rfl, by decide, by decide⟩
theorem witness_ResetMeetsTheInvariant : 1 ≤ 32768 ∧ 32768 ≤ 32768 := by decide
theorem witness_LaunchedMachineMeetsTheInvariant :
    ∃ s, launch 1 [0o000777] = .next s ∧ s.status = .running := ⟨_, rfl, rfl⟩
theorem witness_CountersNeverDecrease :
    ∃ t u, step (probe 0 0 0 0 0) = .next t ∧ t.status.isFault = false ∧
      step (probe 0 0 16 0 0) = .next u ∧ u.status.isFault = true := ⟨_, _, rfl, by decide, rfl, by decide⟩
theorem witness_StepKeepsTheMemorySize : ∃ t, step (probe 0 0 0 0o010111 0) = .next t ∧ t.mem = [] := ⟨_, rfl, by decide⟩
theorem witness_CountersInfluenceNothing :
    ∃ t, step (probe 14 0 0 0o011102 0) = .next t ∧ t.counters = ⟨1, 1, 1, 0, 0, 0⟩ := ⟨_, rfl, by decide⟩
/-- With Z as in the state and N, V and C otherwise, a BNE that keeps the flags and a MOV that replaces them. -/
theorem witness_SignOverflowCarryInfluenceNothing :
    (nzvc 1 0 1 1).z = (probe 0 0 0 0o001001 0).flags.z ∧ (∃ t, step (probe 0 0 0 0o001001 0) = .next t ∧ t.pc = 4) ∧
    (∃ t, step (probe 0 0 0 0o010102 0) = .next t ∧ t.flags = nzvc 0 1 0 0) :=
  ⟨rfl, ⟨_, rfl, by decide⟩, ⟨_, rfl, by decide⟩⟩
theorem witness_FullMemoryRaisesNoBoundsFault :
    ∃ t, State.reset.memWords = 32768 ∧ step State.reset = .next t ∧ t.status = .halted := ⟨_, rfl, rfl, rfl⟩

/-- The last word of memory, by both its addresses, and the first address outside. -/
theorem witness_AccessesAreCheckedAndCounted :
    (probe 0 0 0 0 0).inBounds 14 = true ∧ (probe 0 0 0 0 0).inBounds 15 = true ∧
    ¬ (probe 0 0 0 0 0).inBounds 16 = true := by decide
theorem witness_MemWriteReplacesOneWord :
    (probe 0 0 0 0 0).inBounds 15 = true ∧ ¬ (probe 0 0 0 0 0).inBounds 16 = true ∧ wordIndex 13 ≠ wordIndex 15 ∧
    ¬ inWord 15 13 := by unfold inWord; decide
theorem witness_FetchAdvancesThePcAndCounts :
    (probe 0 0 15 0 0).inBounds (probe 0 0 15 0 0).pc = true ∧
    ¬ (probe 0 0 16 0 0).inBounds (probe 0 0 16 0 0).pc = true := by decide
/-- Both ends of the range of k, and k on both sides of the end of a memory of 8 words, by the even and the odd address. -/
theorem witness_OddAddressNamesTheSameWord :
    0 < 32768 ∧ 32767 < 32768 ∧ (probe 0 0 0 0 0).inBounds 14 = true ∧ (probe 0 0 0 0 0).inBounds 15 = true ∧
    ¬ (probe 0 0 0 0 0).inBounds 16 = true ∧ ¬ (probe 0 0 0 0 0).inBounds 17 = true := by decide
theorem witness_CanonicalMemoriesThatReadAlikeAreEqual :
    (probe 0 0 0 1 0xFF00).mem.wf ∧
    ∀ k, (probe 0 0 0 1 0xFF00).mem.readByte k = Memory.readByte [(0, 1#8), (15, 0xFF#8)] k := by
  have h : (probe 0 0 0 1 0xFF00).mem = [(0, 1#8), (15, 0xFF#8)] := by decide
  exact ⟨by decide, fun k => by rw [h]⟩
theorem witness_StoreIsSeenByTheNextFetch :
    ∃ t, dataWrite 15 7 (probe 0 0 14 0 0) = .ok () t ∧ wordIndex (probe 0 0 14 0 0).pc = wordIndex 15 :=
  ⟨_, rfl, by decide⟩

theorem witness_RegisterAndIndirectModes :
    (probe 15 0 0 0 0).inBounds ((probe 15 0 0 0 0).reg 1) = true ∧
    ¬ (probe 16 0 0 0 0).inBounds ((probe 16 0 0 0 0).reg 1) = true := by decide
theorem witness_AutoincrementModes :
    (1 : Reg) ≠ pcReg ∧ (probe 14 0 0 0 15).inBounds ((probe 14 0 0 0 15).reg 1) = true ∧
    (probe 14 0 0 0 15).inBounds ((probe 14 0 0 0 15).wordAt ((probe 14 0 0 0 15).reg 1)) = true ∧
    ¬ (probe 14 0 0 0 16).inBounds ((probe 14 0 0 0 16).wordAt ((probe 14 0 0 0 16).reg 1)) = true ∧
    ¬ (probe 16 0 0 0 0).inBounds ((probe 16 0 0 0 0).reg 1) = true := by decide
theorem witness_ImmediateAndAbsoluteModes :
    (probe 0 0 14 0 15).inBounds (probe 0 0 14 0 15).pc = true ∧
    (probe 0 0 14 0 15).inBounds ((probe 0 0 14 0 15).wordAt (probe 0 0 14 0 15).pc) = true ∧
    ¬ (probe 0 0 14 0 16).inBounds ((probe 0 0 14 0 16).wordAt (probe 0 0 14 0 16).pc) = true ∧
    ¬ (probe 0 0 16 0 0).inBounds (probe 0 0 16 0 0).pc = true := by decide
/-- The last two: a register past the end, and one that wraps below address 0. -/
theorem witness_AutodecrementModes :
    (probe 16 0 0 0 15).inBounds ((probe 16 0 0 0 15).reg 1 - 2#16) = true ∧
    (probe 16 0 0 0 15).inBounds ((probe 16 0 0 0 15).wordAt ((probe 16 0 0 0 15).reg 1 - 2#16)) = true ∧
    ¬ (probe 16 0 0 0 16).inBounds ((probe 16 0 0 0 16).wordAt ((probe 16 0 0 0 16).reg 1 - 2#16)) = true ∧
    ¬ (probe 18 0 0 0 0).inBounds ((probe 18 0 0 0 0).reg 1 - 2#16) = true ∧
    ¬ (probe 0 0 0 0 0).inBounds ((probe 0 0 0 0 0).reg 1 - 2#16) = true := by decide
/-- The index word is the first word; R1 + index is the last word, or the first address outside, or a sum that wraps. -/
theorem witness_IndexModes :
    (1 : Reg) ≠ pcReg ∧ (probe 4 0 0 10 15).inBounds (probe 4 0 0 10 15).pc = true ∧
    (probe 4 0 0 10 15).inBounds ((probe 4 0 0 10 15).wordAt 0 + (probe 4 0 0 10 15).reg 1) = true ∧
    (probe 4 0 0 10 15).inBounds ((probe 4 0 0 10 15).wordAt 14) = true ∧
    (probe 4 0 0 10 16).inBounds ((probe 4 0 0 10 16).wordAt 0 + (probe 4 0 0 10 16).reg 1) = true ∧
    ¬ (probe 4 0 0 10 16).inBounds ((probe 4 0 0 10 16).wordAt 14) = true ∧
    ¬ (probe 4 0 0 12 0).inBounds ((probe 4 0 0 12 0).wordAt 0 + (probe 4 0 0 12 0).reg 1) = true ∧
    (probe 4 0 0 0xFFFE 0).inBounds ((probe 4 0 0 0xFFFE 0).wordAt 0 + (probe 4 0 0 0xFFFE 0).reg 1) = true ∧
    ¬ (probe 0 0 16 0 0).inBounds (probe 0 0 16 0 0).pc = true := by decide
theorem witness_RelativeModes :
    (probe 0 0 0 12 15).inBounds (probe 0 0 0 12 15).pc = true ∧
    (probe 0 0 0 12 15).inBounds ((probe 0 0 0 12 15).wordAt 0 + (0 + 2#16)) = true ∧
    (probe 0 0 0 12 15).inBounds ((probe 0 0 0 12 15).wordAt 14) = true ∧
    ¬ (probe 0 0 0 12 16).inBounds ((probe 0 0 0 12 16).wordAt 14) = true ∧
    ¬ (probe 0 0 0 14 0).inBounds ((probe 0 0 0 14 0).wordAt 0 + (0 + 2#16)) = true ∧
    ¬ (probe 0 0 16 0 0).inBounds (probe 0 0 16 0 0).pc = true := by decide
theorem witness_ResolveCountsAsTheTableSays :
    ∃ p t, resolve ⟨.indexDeferred, 1⟩ (probe 4 0 0 10 15) = .ok p t ∧ p.ea = some 15 ∧ t.counters = ⟨0, 1, 2, 0, 0, 0⟩ :=
  ⟨_, _, rfl, by decide, by decide⟩
theorem witness_WritebackGoesToTheResolvedPlace :
    (∃ p t, resolve ⟨.register, 7⟩ (probe 0 0 4 0 0) = .ok p t ∧ (t.setReg 7 0).memWords = t.memWords) ∧
    (∃ p t, resolve ⟨.autoDec, 1⟩ (probe 16 0 4 0 0) = .ok p t ∧ (t.setReg 1 0).memWords = t.memWords) :=
  ⟨⟨_, _, rfl, rfl⟩, ⟨_, _, rfl, rfl⟩⟩
theorem witness_SameRegisterInBothOperands :
    (1 : Reg) ≠ pcReg ∧ (probe 14 0 0 0 0).inBounds ((probe 14 0 0 0 0).reg 1) = true ∧
    (probe 16 0 0 0 0).inBounds ((probe 16 0 0 0 0).reg 1 - 2#16) = true ∧
    (probe 12 0 0 0 0).inBounds ((probe 12 0 0 0 0).reg 1) = true ∧
    (probe 12 0 0 0 0).inBounds ((probe 12 0 0 0 0).reg 1 + 2#16) = true := by decide

/-- For MovCompletes, CmpCompletes, AddCompletes, SubCompletes: both operands resolve; the source does not; the source does and the destination, stepped on by it, does not. -/
theorem witness_pair_completes :
    (∃ p t q u, resolve ⟨.autoInc, 1⟩ (probe 14 0 0 0 5) = .ok p t ∧ resolve ⟨.autoDec, 1⟩ t = .ok q u ∧
      p.value = 5 ∧ q.value = 5 ∧ u.reg 1 = 14) ∧
    (∃ t, resolve ⟨.indirect, 1⟩ (probe 16 0 0 0 0) = .stopped t) ∧
    (∃ p t u, resolve ⟨.autoInc, 1⟩ (probe 14 0 0 0 5) = .ok p t ∧ resolve ⟨.indirect, 1⟩ t = .stopped u) :=
  ⟨⟨_, _, _, _, rfl, rfl, by decide, by decide, by decide⟩, ⟨_, rfl⟩, ⟨_, _, _, rfl, rfl⟩⟩
/-- For AslCompletes, AsrCompletes: an operand that resolves and one that does not. -/
theorem witness_shift_completes :
    (∃ q u, resolve ⟨.autoDecDeferred, 1⟩ (probe 16 0 0 9 0) = .ok q u ∧ q.value = 9) ∧
    (∃ u, resolve ⟨.autoDecDeferred, 1⟩ (probe 16 0 0 9 16) = .stopped u) := ⟨⟨_, _, rfl, by decide⟩, ⟨_, rfl⟩⟩
theorem witness_InstructionsGoOnExactlyWhereOperandsAreReadable :
    (probe 14 0 0 0 5).status = .running ∧ Operand.readable ⟨.autoInc, 1⟩ (probe 14 0 0 0 5) ∧
    Operand.readable ⟨.autoDec, 1⟩ (stateAfter ⟨.autoInc, 1⟩ (probe 14 0 0 0 5)) ∧
    ¬ Operand.readable ⟨.indirect, 1⟩ (stateAfter ⟨.autoInc, 1⟩ (probe 14 0 0 0 5)) := by
  unfold Operand.readable; decide
theorem witness_OperandFaultLeavesTheRest :
    ∃ t, exec (.add ⟨.autoInc, 1⟩ ⟨.indirect, 1⟩) (probe 14 0 0 0 5) = .next t ∧ t.status.isFault = true ∧
      (probe 14 0 0 0 5).status.isFault = false := ⟨_, rfl, by decide, by decide⟩

theorem witness_BranchesMoveThePcByTwiceTheOffset :
    ((probe 0 0 0 0 0).setFlags (nzvc 0 1 0 0)).flags.z = true ∧ (probe 0 0 0 0 0).flags.z = false := by decide
/-- A register that reaches 0, one that wraps past it, and the PC at 1 and elsewhere. -/
theorem witness_SobDecrementsAndBranchesBack :
    (1 : Reg) ≠ pcReg ∧ (probe 1 0 0 0 0).reg 1 = 1#16 ∧ (probe 0 0 0 0 0).reg 1 ≠ 1#16 ∧
    (probe 0 0 1 0 0).pc = 1#16 ∧ (probe 0 0 2 0 0).pc ≠ 1#16 := by decide
/-- A MOV that stores, one that writes a register, one that a fault stops, and a register and a byte the frame is about. -/
theorem witness_FrameOfMovAddSub :
    (∃ t, exec (.mov ⟨.register, 2⟩ ⟨.autoDec, 1⟩) (probe 16 7 0 0 0) = .next t ∧ t.wordAt 14 = 7) ∧
    storeAddress (.mov ⟨.register, 2⟩ ⟨.autoDec, 1⟩) (probe 16 7 0 0 0) = some 14 ∧
    (∃ t, exec (.add ⟨.register, 2⟩ ⟨.register, 1⟩) (probe 16 7 0 0 0) = .next t ∧ t.reg 1 = 23) ∧
    (∃ t, exec (.sub ⟨.register, 2⟩ ⟨.indirect, 1⟩) (probe 16 7 0 0 0) = .next t ∧ t.status = .fault .bounds 16) ∧
    ¬ Operand.steps ⟨.register, 2⟩ 2 ∧ ¬ Operand.steps ⟨.autoDec, 1⟩ 2 ∧ ¬ inWord 14 13 := by
  refine ⟨⟨_, rfl, by decide⟩, by decide, ⟨_, rfl, by decide⟩, ⟨_, rfl, by decide⟩, ?_⟩
  unfold Operand.steps inWord; decide
theorem witness_FrameOfCmp :
    ∃ t, exec (.cmp ⟨.autoDec, 1⟩ ⟨.register, 2⟩) (probe 16 7 0 0 0) = .next t ∧ t.reg 1 = 14 ∧ ¬ Operand.steps ⟨.autoDec, 1⟩ 2 :=
  ⟨_, rfl, by decide, by unfold Operand.steps; decide⟩
theorem witness_FrameOfShifts :
    (∃ t, exec (.asl ⟨.indirect, 1⟩) (probe 14 0 0 0 3) = .next t ∧ t.wordAt 14 = 6) ∧
    (∃ t, exec (.asr ⟨.register, 1⟩) (probe 14 0 0 0 3) = .next t ∧ t.reg 1 = 7) ∧
    ¬ Operand.steps ⟨.indirect, 1⟩ 1 := ⟨⟨_, rfl, by decide⟩, ⟨_, rfl, by decide⟩, by unfold Operand.steps; decide⟩
theorem witness_FrameOfBranchesAndHalt :
    (∃ t, exec (.beq 2) (probe 0 0 2 0 0) = .next t) ∧ (∃ t, exec (.bne (-1)) (probe 0 0 2 0 0) = .next t ∧ t.pc = 0) ∧
    (∃ t, exec (.br 1) (probe 0 0 2 0 0) = .next t ∧ t.pc = 4) ∧ (∃ t, exec (.sob 1 0) (probe 0 0 2 0 0) = .next t) ∧
    (∃ t, exec .halt (probe 0 0 2 0 0) = .next t) := ⟨⟨_, rfl⟩, ⟨_, rfl, by decide⟩, ⟨_, rfl, by decide⟩, ⟨_, rfl⟩, ⟨_, rfl⟩⟩

/-- For this statement and for NegativeAndZeroComeFromTheResult, AddFlagsAreOverflowAndCarry, SubFlagsAreOverflowAndBorrow and
ShiftLeftFlagsAreSignChangeAndTopBit: each of the six flag-setting instructions over the operands that `witness_pair_completes`
and `witness_shift_completes` resolve. -/
theorem witness_FlagsAreWrittenOnlyByTheirInstructions :
    (∃ x, exec (.mov ⟨.autoInc, 1⟩ ⟨.autoDec, 1⟩) (probe 14 0 0 0 5) = .next x) ∧
    (∃ x, exec (.cmp ⟨.autoInc, 1⟩ ⟨.autoDec, 1⟩) (probe 14 0 0 0 5) = .next x) ∧
    (∃ x, exec (.add ⟨.autoInc, 1⟩ ⟨.autoDec, 1⟩) (probe 14 0 0 0 5) = .next x) ∧
    (∃ x, exec (.sub ⟨.autoInc, 1⟩ ⟨.autoDec, 1⟩) (probe 14 0 0 0 5) = .next x) ∧
    (∃ x, exec (.asl ⟨.autoDecDeferred, 1⟩) (probe 16 0 0 9 0) = .next x) ∧
    (∃ x, exec (.asr ⟨.autoDecDeferred, 1⟩) (probe 16 0 0 9 0) = .next x) ∧
    (∃ w t, fetchWord (probe 0 0 14 0 5) = .ok w t) ∧ (∃ t, fetchWord (probe 0 0 16 0 5) = .stopped t) ∧
    (∃ t, update ⟨.memory 14, 5⟩ 6 (probe 0 0 14 0 5) = .ok () t) ∧
    (∃ t, update ⟨.memory 16, 5⟩ 6 (probe 0 0 14 0 5) = .stopped t) :=
  ⟨⟨_, rfl⟩, ⟨_, rfl⟩, ⟨_, rfl⟩, ⟨_, rfl⟩, ⟨_, rfl⟩, ⟨_, rfl⟩, ⟨_, _, rfl⟩, ⟨_, rfl⟩, ⟨_, rfl⟩, ⟨_, rfl⟩⟩
theorem witness_AddThenSubRestores : (1 : Reg) ≠ 7 := by decide
theorem witness_LaunchPlacesTheImage :
    ([1, 2] : List Word).length ≤ 2 ∧ 2 < ([1, 2, 3] : List Word).length ∧ 32768 < 32769 ∧ 0 < 1 := by decide

end Sys2Proof.Tests
end

/-! PROOFS. The memory primitives: what a write does to each word and byte, and what each access checks and counts
(20_memory.md R42, R43, R45, R46). -/

namespace Sys2Proof.Machine

/-! ### A memory write -/

@[simp] theorem memWrite_of_inBounds {a : Word} {s : State} (v : Word) (h : s.inBounds a) :
    memWrite a v s = .ok () (s.setMem (s.mem.writeWord (wordIndex a) v)) := by
  simp only [memWrite, if_pos h]

@[simp] theorem memWrite_of_outside {a : Word} {s : State} (v : Word) (h : ¬ s.inBounds a) :
    memWrite a v s = .stopped (raiseFault .bounds a s) := by
  simp only [memWrite, if_neg h]

/-- A store leaves every byte outside the word it names as it was. -/
theorem readByte_writeWord_of_not_inWord (m : Memory) {a : Word} {k : Nat} (v : Word) (h : ¬ inWord a k) :
    (m.writeWord (wordIndex a) v).readByte k = m.readByte k := by
  obtain ⟨hlow, hhigh⟩ := not_or.mp h
  exact m.readByte_writeWord_outside v hlow hhigh

/-- Settles O21: in bounds the state after the write is the one before with the word stored, and the laws of a word store
give every word and byte of it; every other field is untouched by `setMem`. -/
theorem memWriteReplacesOneWord : Obligations.MemWriteReplacesOneWord := by
  intro s a v
  refine ⟨fun hin => ?_, fun hout => memWrite_of_outside v hout⟩
  refine ⟨_, memWrite_of_inBounds v hin, ?same, ?other, fun k hk => readByte_writeWord_of_not_inWord s.mem v hk,
    fun _ => rfl, rfl, rfl, rfl, rfl⟩
  case same => exact s.mem.readWord_writeWord_same (wordIndex a) v
  case other => exact fun b hb => s.mem.readWord_writeWord_of_ne v hb

/-! ### The data accesses -/

/-- Settles O20: by the bounds check, from what each of `memRead`, `dataRead` and `dataWrite` can do. -/
theorem accessesAreCheckedAndCounted : Obligations.AccessesAreCheckedAndCounted := by
  intro s a v
  constructor
  · intro hin
    refine ⟨memRead_of_inBounds hin, ?read, _, memWrite_of_inBounds v hin, ?write, rfl⟩
    case read => rw [dataRead_eq, if_pos hin]; rfl
    case write => rw [dataWrite_eq, if_pos hin]; rfl
  · intro hout
    refine ⟨memRead_of_outside hout, ?read, ?write⟩
    case read => rw [dataRead_eq, if_neg hout]; rfl
    case write => rw [dataWrite_eq, if_neg hout]; rfl

end Sys2Proof.Machine

/-! PROOFS. The operand resolver and writeback: the operand's own access, modes 0 and 1, and where a resolved phrase points
(40_operand_resolver.md R81, R82, R93). -/

namespace Sys2Proof.Machine

/-! ### The operand's own access -/

@[simp] theorem operandAt_of_inBounds {ea : Word} {s : State} (h : s.inBounds ea) :
    operandAt ea s = .ok ⟨.memory ea, s.wordAt ea⟩ (countRead s) := by
  rw [operandAt, dataRead_eq, if_pos h, Access.ok_andThen]

@[simp] theorem operandAt_of_outside {ea : Word} {s : State} (h : ¬ s.inBounds ea) :
    operandAt ea s = .stopped (raiseFault .bounds ea s) := by
  rw [operandAt, dataRead_eq, if_neg h, Access.stopped_andThen]

/-- Settles O26: mode 0 answers the register; mode 1 is the operand's own access at the register's contents. -/
theorem registerAndIndirectModes : Obligations.RegisterAndIndirectModes := fun _ _ =>
  ⟨rfl, operandAt_of_inBounds, operandAt_of_outside⟩

/-! ### Where a resolved phrase points -/

theorem place_of_operandAt {ea : Word} {s t : State} {p : Phrase} (h : operandAt ea s = .ok p t) :
    p.place = .memory ea := by
  obtain ⟨v, u, -, hp⟩ := Access.andThen_eq_ok.mp h
  cases hp
  rfl

/-- A phrase of modes 1 to 7 points at memory: each of them ends in the operand's own access, but for an immediate, which
points at the word it fetched. -/
theorem place_of_resolve_memory {o : Operand} {s t : State} {p : Phrase} (hm : o.mode ≠ .register)
    (h : resolve o s = .ok p t) : ∃ ea, p.place = .memory ea := by
  obtain ⟨m, r⟩ := o
  cases m with
  | register => exact absurd rfl hm
  | indirect => exact ⟨_, place_of_operandAt h⟩
  | autoInc =>
    simp only [resolve] at h
    split at h
    · obtain ⟨v, u, -, hp⟩ := Access.andThen_eq_ok.mp h
      cases hp
      exact ⟨s.pc, rfl⟩
    · obtain ⟨q, u, hq, hp⟩ := Access.andThen_eq_ok.mp h
      cases hp
      exact ⟨_, place_of_operandAt hq⟩
  | autoIncDeferred =>
    simp only [resolve] at h
    split at h <;>
    · obtain ⟨ea, u, -, hp⟩ := Access.andThen_eq_ok.mp h
      exact ⟨ea, place_of_operandAt hp⟩
  | autoDec => exact ⟨_, place_of_operandAt h⟩
  | autoDecDeferred =>
    obtain ⟨ea, u, -, hp⟩ := Access.andThen_eq_ok.mp h
    exact ⟨ea, place_of_operandAt hp⟩
  | index =>
    obtain ⟨x, u, -, hp⟩ := Access.andThen_eq_ok.mp h
    exact ⟨_, place_of_operandAt hp⟩
  | indexDeferred =>
    obtain ⟨x, u, -, hu⟩ := Access.andThen_eq_ok.mp h
    obtain ⟨ea, w, -, hp⟩ := Access.andThen_eq_ok.mp hu
    exact ⟨ea, place_of_operandAt hp⟩

/-- A phrase of mode 0 points at the operand's register. -/
theorem place_of_resolve_register {o : Operand} {s t : State} {p : Phrase} (hm : o.mode = .register)
    (h : resolve o s = .ok p t) : p.place = .register o.reg := by
  obtain ⟨m, r⟩ := o
  subst hm
  cases h
  rfl

/-! ### Writeback -/

/-- Settles O34: the phrase's place follows the operand's mode, and the address `resolve` checked is still in bounds in a state
of the same size, so the store ends well; what it stores is the memory's own law. -/
theorem writebackGoesToTheResolvedPlace : Obligations.WritebackGoesToTheResolvedPlace := by
  intro o s t u p v hp hsize
  obtain ⟨hkeeps, -, hin⟩ := resolve_ok hp
  have hinside : ∀ ea, p.ea = some ea → wordIndex ea < u.memWords := by
    rw [hsize, hkeeps.memWords]
    exact hin
  have hupdate := update_of_inside v hinside
  refine ⟨⟨fun hm => place_of_resolve_register hm hp, fun hpl => ?mode⟩, fun hm => ?register, fun hm => ?memory⟩
  case mode =>
    by_contra hm
    obtain ⟨ea, hea⟩ := place_of_resolve_memory hm hp
    cases hea.symm.trans hpl
  case register => rw [hupdate, place_of_resolve_register hm hp]
  case memory =>
    obtain ⟨ea, hea⟩ := place_of_resolve_memory hm hp
    rw [hea] at hupdate
    exact ⟨ea, _, hea, hupdate, u.mem.readWord_writeWord_same (wordIndex ea) v,
      fun k hk => readByte_writeWord_of_not_inWord u.mem v hk, rfl, fun _ => rfl, rfl, rfl, rfl⟩

end Sys2Proof.Machine

/-! PROOFS. A double-operand instruction over its resolved pair, and ADD (40_operand_resolver.md R93, R94;
42_double_operand.md R120, R123). -/

namespace Sys2Proof.Machine

/-! ### A handler over a resolved pair -/

/-- The destination of a resolved pair is written back without a fault, and writeback does what `writtenBack` says: resolving
keeps the size of memory, so the address it checked is still inside. -/
theorem finish_writeResult_of_resolved {dst : Operand} {t u : State} {q : Phrase} (res : Word) (f : Flags)
    (hq : resolve dst t = .ok q u) : ∃ x, finish (writeResult q res f u) = .next x ∧ writtenBack q res f u x := by
  obtain ⟨hkeeps, -, hin⟩ := resolve_ok hq
  rw [← hkeeps.memWords] at hin
  obtain ⟨x, hx, hback⟩ := writeResult_of_inside res f hin
  exact ⟨x, by rw [hx, finish_ok], hback⟩

/-- A pair a fault stops ends the instruction in the state the fault left, whatever the instruction would have done. -/
theorem finish_andThen_of_resolvePair_stopped {src dst : Operand} {s u : State} (f : Phrase × Phrase → State → Access Unit)
    (h : resolvePair src dst s = .stopped u) : finish ((resolvePair src dst s).andThen f) = .next u := by
  rw [h, Access.stopped_andThen, finish_stopped]

/-! ### The flags of an addition -/

/-- The flags of an addition in the spelling of Boolean equality. -/
theorem addFlags_eq (d s res : Word) :
    addFlags d s res = ⟨res.msb, res == 0#16, (d.msb == s.msb) && (res.msb != d.msb), decide (2 ^ 16 ≤ d.toNat + s.toNat)⟩ := by
  ext
  case n => rfl
  case z => rfl
  case v =>
    show (decide (d.msb = s.msb) && decide (res.msb ≠ d.msb)) = ((d.msb == s.msb) && (res.msb != d.msb))
    rw [decide_not, bne, beq_eq_decide, beq_eq_decide]
  case c => rfl

/-! ### ADD -/

/-- ADD over a resolved pair writes the sum back through the destination's phrase, with the flags of the addition. -/
theorem exec_add_of_resolvePair_ok {src dst : Operand} {s u : State} {p q : Phrase}
    (h : resolvePair src dst s = .ok (p, q) u) :
    exec (.add src dst) s =
      finish (writeResult q (q.value + p.value) (addFlags q.value p.value (q.value + p.value)) u) := by
  show execAdd src dst s = _
  rw [execAdd, h, Access.ok_andThen]

theorem exec_add_of_resolvePair_stopped {src dst : Operand} {s u : State} (h : resolvePair src dst s = .stopped u) :
    exec (.add src dst) s = .next u :=
  finish_andThen_of_resolvePair_stopped _ h

/-- Settles O38: where the pair resolves, the sum and its flags are written back through the destination's phrase, and the
word sum is the sum of the values modulo 2^16; the fault of either operand is the pair's. -/
theorem addCompletes : Obligations.AddCompletes := by
  intro src dst s
  refine ⟨fun p t q u hp hq => ?resolved, fun t hp => ?source, fun p t u hp hq => ?destination⟩
  case resolved =>
    have hpair : resolvePair src dst s = .ok (p, q) u := resolvePair_eq_ok.mpr ⟨t, hp, hq⟩
    obtain ⟨x, hx, hback⟩ := finish_writeResult_of_resolved _ (addFlags q.value p.value (q.value + p.value)) hq
    refine ⟨x, q.value + p.value, (exec_add_of_resolvePair_ok hpair).trans hx, ?sum, addFlags_eq .. ▸ hback⟩
    case sum => rw [BitVec.ofNat_add, BitVec.ofNat_toNat, BitVec.ofNat_toNat, BitVec.setWidth_eq, BitVec.setWidth_eq]
  case source => exact exec_add_of_resolvePair_stopped (resolvePair_eq_stopped.mpr (.inl hp))
  case destination => exact exec_add_of_resolvePair_stopped (resolvePair_eq_stopped.mpr (.inr ⟨p, t, hp, hq⟩))

end Sys2Proof.Machine

/-! PROOFS. ASL: the doubled word, its flags and the handler over its resolved operand (43_shifts.md R130, R132;
46_condition_codes.md R164). -/

namespace Sys2Proof.Machine

/-! ### The doubled word -/

/-- The shift by one place is the sum of the word and itself. -/
theorem shiftLeft_eq_add_self (d : Word) : shiftLeft d = d + d := by
  have htwo : BitVec.twoPow 16 1 = 2#16 := rfl
  rw [shiftLeft, BitVec.shiftLeft_eq_mul_twoPow, htwo, BitVec.mul_two]

theorem shiftLeft_eq_ofNat (d : Word) : shiftLeft d = BitVec.ofNat 16 (d.toNat * 2) := by
  rw [shiftLeft_eq_add_self, Nat.mul_two, BitVec.ofNat_add, BitVec.ofNat_toNat, BitVec.setWidth_eq]

/-- The old bit 14 becomes the sign. -/
theorem shiftLeft_msb (d : Word) : (shiftLeft d).msb = d.getLsbD 14 := by
  simp [shiftLeft, BitVec.msb_eq_getLsbD_last]

/-! ### The flags of a left shift -/

/-- The flags of a left shift in the spelling of Boolean equality. -/
theorem shiftLeftFlags_eq (d res : Word) :
    shiftLeftFlags d res = ⟨res.msb, res == 0#16, res.msb != d.msb, d.getLsbD 15⟩ := by
  ext
  case n => rfl
  case z => rfl
  case v => exact decide_not
  case c => exact BitVec.msb_eq_getLsbD_last d

/-- Doubling a word carries out exactly where its sign is set. -/
theorem msb_eq_carry_of_add_self (d : Word) : d.msb = decide (2 ^ 16 ≤ d.toNat + d.toNat) := by
  rw [BitVec.msb_eq_decide, decide_eq_decide]
  omega

/-- A left shift sets the flags of adding the word to itself: operands of one sign overflow where the sign of the result
differs, and the carry is the sign shifted out. -/
theorem shiftLeftFlags_eq_addFlags_self (d res : Word) : shiftLeftFlags d res = addFlags d d res := by
  rw [shiftLeftFlags_eq, addFlags_eq, beq_self_eq_true, Bool.true_and, ← msb_eq_carry_of_add_self,
    BitVec.msb_eq_getLsbD_last d]

/-! ### ASL -/

/-- ASL over a resolved operand writes the doubled word back through the same phrase. -/
theorem exec_asl_of_resolve_ok {dst : Operand} {s u : State} {q : Phrase} (h : resolve dst s = .ok q u) :
    exec (.asl dst) s =
      finish (writeResult q (shiftLeft q.value) (shiftLeftFlags q.value (shiftLeft q.value)) u) := by
  show execAsl dst s = _
  rw [execAsl, h, Access.ok_andThen]

theorem exec_asl_of_resolve_stopped {dst : Operand} {s u : State} (h : resolve dst s = .stopped u) :
    exec (.asl dst) s = .next u := by
  show execAsl dst s = _
  rw [execAsl, h, Access.stopped_andThen, finish_stopped]

/-- Settles O40: where the operand resolves, the doubled word and its flags are written back through its phrase; the word is the
sum of the operand and itself, its flags are those of that addition, and the sign it shifts out and the one it shifts in are the
old bits 15 and 14. -/
theorem aslCompletes : Obligations.AslCompletes := by
  intro dst s
  refine ⟨fun q u hq => ?resolved, fun u hstop => exec_asl_of_resolve_stopped hstop⟩
  case resolved =>
    have hflags := shiftLeftFlags_eq q.value (shiftLeft q.value)
    obtain ⟨x, hx, hback⟩ :=
      finish_writeResult_of_resolved (shiftLeft q.value) (shiftLeftFlags q.value (shiftLeft q.value)) hq
    refine ⟨x, _, _, (exec_asl_of_resolve_ok hq).trans hx, shiftLeft_eq_ofNat q.value, hflags, hback,
      shiftLeft_eq_add_self q.value, shiftLeftFlags_eq_addFlags_self .., ?signs, ?bits⟩
    case signs => rw [hflags, ← BitVec.msb_eq_getLsbD_last]
    case bits => rw [hflags, shiftLeft_msb, BitVec.msb_eq_getLsbD_last]

end Sys2Proof.Machine

/-! PROOFS. The branches BEQ, BNE and BR (44_branches.md R140 to R142). -/

namespace Sys2Proof.Machine

/-! ### Where a branch leads -/

/-- Moving a word by a displacement is the sum of the integers, modulo 2^16. -/
theorem add_displacement (w : Word) (d : Int) : w + displacement d = BitVec.ofInt 16 (w.toNat + d) := by
  rw [displacement, BitVec.ofInt_add, BitVec.ofInt_natCast, BitVec.ofNat_toNat, BitVec.setWidth_eq]

/-- A taken branch moves the PC and counts a branch and a taken branch, all in one update of each. -/
theorem branchWhen_true_eq_ofInt (d : Int) (s : State) :
    branchWhen true d s = (s.setPc (BitVec.ofInt 16 (s.pc.toNat + d))).setCounters
      { s.counters with branch := s.counters.branch + 1, taken := s.counters.taken + 1 } := by
  rw [← add_displacement]
  rfl

/-! ### The instructions -/

/-- BEQ is a branch on Z. -/
theorem exec_beq_of_z {s : State} {b : Bool} (off : Int) (h : s.flags.z = b) :
    exec (.beq off) s = .next (branchWhen b (2 * off) s) := by
  subst h
  rfl

/-- BNE is a branch on the complement of Z. -/
theorem exec_bne_of_z {s : State} {b : Bool} (off : Int) (h : s.flags.z = b) :
    exec (.bne off) s = .next (branchWhen (!b) (2 * off) s) := by
  subst h
  rfl

/-- BR is a branch that no flag guards. -/
theorem exec_br (off : Int) (s : State) : exec (.br off) s = .next (branchWhen true (2 * off) s) := rfl

/-- Settles O44: each is a `branchWhen` whose guard Z decides, or nothing does; a taken one moves the PC by the sum of the
integers, and one not taken is counted only, which is the definition of `countBranch`. -/
theorem branchesMoveThePcByTwiceTheOffset : Obligations.BranchesMoveThePcByTwiceTheOffset := by
  intro s off taken notTaken
  have htaken : branchWhen true (2 * off) s = taken := branchWhen_true_eq_ofInt (2 * off) s
  have hnot : branchWhen false (2 * off) s = notTaken := branchWhen_false (2 * off) s
  refine ⟨fun hz => ?beqTaken, fun hz => ?beqNot, fun hz => ?bneTaken, fun hz => ?bneNot, ?br⟩
  case beqTaken => rw [exec_beq_of_z off hz, htaken]
  case beqNot => rw [exec_beq_of_z off hz, hnot]
  case bneTaken => rw [exec_bne_of_z off hz, Bool.not_false, htaken]
  case bneNot => rw [exec_bne_of_z off hz, Bool.not_true, hnot]
  case br => rw [exec_br, htaken]

end Sys2Proof.Machine

/-! PROOFS. The condition codes after a flag-setting instruction: each writes its category's function of the operand values, N and
Z of every result, and V and C of ADD and ASL in their equivalent forms (46_condition_codes.md R160, R161, R162, R164). -/

namespace Sys2Proof.Machine

/-! ### The handlers over resolved operands -/

/-- MOV over a resolved pair writes the source's value back through the destination's phrase. -/
theorem exec_mov_of_resolvePair_ok {src dst : Operand} {s u : State} {p q : Phrase}
    (h : resolvePair src dst s = .ok (p, q) u) :
    exec (.mov src dst) s = finish (writeResult q p.value (moveFlags p.value) u) := by
  show execMov src dst s = _
  rw [execMov, h, Access.ok_andThen]

/-- CMP over a resolved pair sets the flags of destination minus source. -/
theorem exec_cmp_of_resolvePair_ok {src dst : Operand} {s u : State} {p q : Phrase}
    (h : resolvePair src dst s = .ok (p, q) u) :
    exec (.cmp src dst) s = .next (u.setFlags (subFlags q.value p.value (q.value - p.value))) := by
  show execCmp src dst s = _
  rw [execCmp, h, Access.ok_andThen, finish_ok]

/-- SUB over a resolved pair writes the difference back through the destination's phrase, with the flags of the subtraction. -/
theorem exec_sub_of_resolvePair_ok {src dst : Operand} {s u : State} {p q : Phrase}
    (h : resolvePair src dst s = .ok (p, q) u) :
    exec (.sub src dst) s =
      finish (writeResult q (q.value - p.value) (subFlags q.value p.value (q.value - p.value)) u) := by
  show execSub src dst s = _
  rw [execSub, h, Access.ok_andThen]

/-- ASR over a resolved operand writes the shifted word back through the same phrase. -/
theorem exec_asr_of_resolve_ok {dst : Operand} {s u : State} {q : Phrase} (h : resolve dst s = .ok q u) :
    exec (.asr dst) s =
      finish (writeResult q (shiftRight q.value) (shiftRightFlags q.value (shiftRight q.value)) u) := by
  show execAsr dst s = _
  rw [execAsr, h, Access.ok_andThen]

/-! ### The flags each instruction leaves -/

/-- An instruction that writes its result back through a resolved phrase leaves the flags it was given. -/
theorem flags_of_finish_writeResult {dst : Operand} {t u x : State} {q : Phrase} {res : Word} {f : Flags}
    (hq : resolve dst t = .ok q u) (hx : finish (writeResult q res f u) = .next x) : x.flags = f := by
  obtain ⟨y, hy, hflags, -⟩ := finish_writeResult_of_resolved res f hq
  cases hx.symm.trans hy
  exact hflags

section
variable {src dst : Operand} {s t u x : State} {p q : Phrase}

theorem flags_of_exec_mov (hp : resolve src s = .ok p t) (hq : resolve dst t = .ok q u)
    (hx : exec (.mov src dst) s = .next x) : x.flags = moveFlags p.value := by
  rw [exec_mov_of_resolvePair_ok (resolvePair_eq_ok.mpr ⟨t, hp, hq⟩)] at hx
  exact flags_of_finish_writeResult hq hx

theorem flags_of_exec_cmp (hp : resolve src s = .ok p t) (hq : resolve dst t = .ok q u)
    (hx : exec (.cmp src dst) s = .next x) : x.flags = subFlags q.value p.value (q.value - p.value) := by
  rw [exec_cmp_of_resolvePair_ok (resolvePair_eq_ok.mpr ⟨t, hp, hq⟩)] at hx
  cases hx
  exact State.setFlags_flags ..

theorem flags_of_exec_add (hp : resolve src s = .ok p t) (hq : resolve dst t = .ok q u)
    (hx : exec (.add src dst) s = .next x) : x.flags = addFlags q.value p.value (q.value + p.value) := by
  rw [exec_add_of_resolvePair_ok (resolvePair_eq_ok.mpr ⟨t, hp, hq⟩)] at hx
  exact flags_of_finish_writeResult hq hx

theorem flags_of_exec_sub (hp : resolve src s = .ok p t) (hq : resolve dst t = .ok q u)
    (hx : exec (.sub src dst) s = .next x) : x.flags = subFlags q.value p.value (q.value - p.value) := by
  rw [exec_sub_of_resolvePair_ok (resolvePair_eq_ok.mpr ⟨t, hp, hq⟩)] at hx
  exact flags_of_finish_writeResult hq hx

theorem flags_of_exec_asl (hq : resolve dst s = .ok q u) (hx : exec (.asl dst) s = .next x) :
    x.flags = shiftLeftFlags q.value (shiftLeft q.value) :=
  flags_of_finish_writeResult hq ((exec_asl_of_resolve_ok hq).symm.trans hx)

theorem flags_of_exec_asr (hq : resolve dst s = .ok q u) (hx : exec (.asr dst) s = .next x) :
    x.flags = shiftRightFlags q.value (shiftRight q.value) :=
  flags_of_finish_writeResult hq ((exec_asr_of_resolve_ok hq).symm.trans hx)

end

/-! ### The word shifted right -/

/-- Bit 15 is or-ed back into the word shifted down, which is the shift that replicates the sign. -/
theorem shiftRight_eq_sshiftRight (d : Word) : shiftRight d = d.sshiftRight 1 := by
  have hmask : 0o100000#16 = BitVec.twoPow 16 15 := rfl
  apply BitVec.eq_of_getLsbD_eq
  intro i hi
  rw [shiftRight, hmask, BitVec.getLsbD_sshiftRight, BitVec.msb_eq_getLsbD_last]
  by_cases htop : i = 15
  · subst htop
    simp
  · simp [show 1 + i < 16 by omega, Ne.symm htop, Nat.not_le.mpr hi]

/-- The shift halves the signed value toward minus infinity. -/
theorem shiftRight_eq_ofInt (d : Word) : shiftRight d = BitVec.ofInt 16 (d.toInt / 2) := by
  rw [shiftRight_eq_sshiftRight, BitVec.sshiftRight_eq, Int.shiftRight_eq_div_pow]
  rfl

/-! ### N and Z -/

/-- Flags whose N and Z are the condition-code unit's say what R160 says: a word whose top bit is set is not zero. -/
theorem Flags.signAndZeroOf_of_eq {f : Flags} {res : Word} {v c : Bool} (h : f = ⟨signBit res, isZero res, v, c⟩) :
    f.signAndZeroOf res := by
  have hn : f.n = true ↔ 2 ^ 15 ≤ res.toNat := by rw [h, signBit, BitVec.msb_eq_decide, decide_eq_true_iff]
  have hz : f.z = true ↔ res.toNat = 0 := by rw [h, isZero, decide_eq_true_iff, BitVec.toNat_eq]; rfl
  refine ⟨hn, hz, fun ⟨hneg, hzero⟩ => ?_⟩
  have hle := hn.mp hneg
  rw [hz.mp hzero] at hle
  exact absurd hle (by decide)

/-- Settles O52: the flags of each category carry N and Z of its result, MOV's have V and C clear, and the two shifted words are
the operand doubled modulo 2^16 and its signed half. -/
theorem negativeAndZeroComeFromTheResult : Obligations.NegativeAndZeroComeFromTheResult := by
  constructor
  · intro src dst s t u x p q hp hq
    refine ⟨fun hx => ?mov, fun hx => ?cmp, fun hx => ?add, fun hx => ?sub⟩
    case mov =>
      have hflags := flags_of_exec_mov hp hq hx
      exact ⟨Flags.signAndZeroOf_of_eq hflags, by rw [hflags, moveFlags], by rw [hflags, moveFlags]⟩
    case cmp => exact Flags.signAndZeroOf_of_eq (flags_of_exec_cmp hp hq hx)
    case add => exact Flags.signAndZeroOf_of_eq (flags_of_exec_add hp hq hx)
    case sub => exact Flags.signAndZeroOf_of_eq (flags_of_exec_sub hp hq hx)
  · intro dst s u x q hq
    refine ⟨fun hx => ?asl, fun hx => ?asr⟩
    case asl => exact shiftLeft_eq_ofNat q.value ▸ Flags.signAndZeroOf_of_eq (flags_of_exec_asl hq hx)
    case asr => exact shiftRight_eq_ofInt q.value ▸ Flags.signAndZeroOf_of_eq (flags_of_exec_asr hq hx)

/-! ### V and C of an addition -/

/-- Overflow by the signs: the operands agree and the result differs. -/
theorem addFlags_v_iff_signs (d e res : Word) :
    (addFlags d e res).v = true ↔ d.msb = e.msb ∧ res.msb ≠ d.msb := by
  rw [addFlags_eq, Bool.and_eq_true, beq_iff_eq, bne_iff_ne]

/-- The signs show an overflow exactly where the signed sum of two words leaves their range. -/
theorem addFlags_v_iff_signed_range (d e : Word) :
    (addFlags d e (d + e)).v = true ↔ d.toInt + e.toInt < -32768 ∨ 32767 < d.toInt + e.toInt := by
  have hoverflow : (addFlags d e (d + e)).v = d.saddOverflow e := by
    rw [addFlags_eq, BitVec.saddOverflow_eq, bne]
  rw [hoverflow, BitVec.saddOverflow, Bool.or_eq_true, decide_eq_true_iff, decide_eq_true_iff]
  omega

/-- Overflow as one bit: both operands differ from the result in the sign. -/
theorem addFlags_v_eq_msb (d e res : Word) : (addFlags d e res).v = ((d ^^^ res) &&& (e ^^^ res)).msb := by
  have hsigns : ∀ a b r : Bool, ((a == b) && (r != a)) = ((a ^^ r) && (b ^^ r)) := by decide
  rw [addFlags_eq, BitVec.msb_and, BitVec.msb_xor, BitVec.msb_xor]
  exact hsigns d.msb e.msb res.msb

theorem addFlags_c_iff_sum (d e res : Word) : (addFlags d e res).c = true ↔ 2 ^ 16 ≤ d.toNat + e.toNat := by
  rw [addFlags_eq, decide_eq_true_iff]

/-- A sum of two words wraps at most once, and falls below either of them exactly where it does. -/
theorem two_pow_le_sum_iff_add_lt (d e : Word) : 2 ^ 16 ≤ d.toNat + e.toNat ↔ (d + e).toNat < d.toNat := by
  have hd := d.isLt
  have he := e.isLt
  rw [BitVec.toNat_add]
  omega

/-- Settles O53: ADD leaves the flags of the addition, whose V and C have each of the rule's forms. -/
theorem addFlagsAreOverflowAndCarry : Obligations.AddFlagsAreOverflowAndCarry := by
  intro src dst s t u x p q hp hq hx d e res
  have hflags : x.flags = addFlags d e res := flags_of_exec_add hp hq hx
  rw [hflags]
  exact ⟨addFlags_v_iff_signs d e res, addFlags_v_iff_signed_range d e, addFlags_v_eq_msb d e res,
    addFlags_c_iff_sum d e res, (addFlags_c_iff_sum d e res).trans (two_pow_le_sum_iff_add_lt d e)⟩

/-! ### V and C of a left shift -/

/-- Settles O55: ASL leaves the flags of the left shift, and the sign it shifts in is the old bit 14. -/
theorem shiftLeftFlagsAreSignChangeAndTopBit : Obligations.ShiftLeftFlagsAreSignChangeAndTopBit := by
  intro dst s u x q hq hx d res
  have hres : shiftLeft d = res := shiftLeft_eq_ofNat d
  have hflags : x.flags = ⟨res.msb, res == 0#16, res.msb != d.msb, d.getLsbD 15⟩ := by
    rw [flags_of_exec_asl hq hx, shiftLeftFlags_eq, hres]
  rw [hflags]
  refine ⟨?signs, ?bits, rfl, ?signAndCarry⟩
  case signs => rw [bne_iff_ne, BitVec.msb_eq_getLsbD_last, BitVec.msb_eq_getLsbD_last]
  case bits => rw [← hres, shiftLeft_msb, BitVec.msb_eq_getLsbD_last]
  case signAndCarry => rw [BitVec.msb_eq_getLsbD_last d]

end Sys2Proof.Machine

/-! PROOFS. The decode fault: one step through its fetch, the statuses an instruction can leave, and R180
(41_decoder_and_loop.md R102; 60_exceptions.md R180). -/

namespace Sys2Proof.Machine

/-! ### One step through its fetch -/

/-- Only a running machine has a next state. -/
theorem running_of_step_eq_next {s t : State} (h : step s = .next t) : s.status = .running := by
  unfold step at h
  split at h
  case h_1 => cases h
  case h_2 => cases h
  case h_3 hrun => exact hrun

theorem step_of_pc_inBounds {s : State} (hrun : s.status = .running) (hin : s.inBounds s.pc) :
    step s = runFetched (s.wordAt s.pc) ((countFetch s).setPc (s.pc + wordStep)) := by
  simp only [step, hrun, fetchWord_eq, if_pos hin]

theorem step_of_pc_outside {s : State} (hrun : s.status = .running) (hout : ¬ s.inBounds s.pc) :
    step s = .next (raiseFault .bounds s.pc s) := by
  simp only [step, hrun, fetchWord_eq, if_neg hout]

theorem runFetched_of_decodeWord_none {w : Word} (s : State) (h : decodeWord w = none) :
    runFetched w s = .next (raiseFault .decode w s) := by
  simp only [runFetched, h]

theorem runFetched_of_decodeWord_some {w : Word} {i : Instr} (s : State) (h : decodeWord w = some i) :
    runFetched w s = retire (exec i s) := by
  simp only [runFetched, h]

/-- Retiring answers a next state exactly where the handler did, and completes it. -/
theorem retire_eq_next {x : Host.Outcome State Fault Refusal} {t : State} :
    retire x = .next t ↔ ∃ u, x = .next u ∧ completeStep u = t := by
  cases x <;> simp [retire]

/-! ### The statuses an instruction can leave -/

/-- An access that keeps the status where it ends well, and that nothing but a bounds fault stops. -/
def KeepsStatus {α : Type} (s : State) : Access α → Prop
  | .ok _ t => t.status = s.status
  | .stopped t => ∃ a, t.status = .fault .bounds a

theorem KeepsStatus.ok {α : Type} {s t : State} (v : α) (h : t.status = s.status) : KeepsStatus s (.ok v t) := h

theorem KeepsStatus.andThen {α β : Type} {s : State} {x : Access α} {f : α → State → Access β}
    (hx : KeepsStatus s x) (hf : ∀ v t, KeepsStatus t (f v t)) : KeepsStatus s (x.andThen f) := by
  cases x with
  | stopped t => exact hx
  | ok v t =>
    have hstatus : t.status = s.status := hx
    have hfv := hf v t
    rw [Access.ok_andThen]
    cases hu : f v t with
    | ok w u =>
      rw [hu] at hfv
      exact hfv.trans hstatus
    | stopped u =>
      rw [hu] at hfv
      exact hfv

theorem resolve_keepsStatus (o : Operand) (s : State) : KeepsStatus s (resolve o s) := by
  cases h : resolve o s with
  | ok p t =>
    obtain ⟨-, hstatus, -⟩ := resolve_ok h
    exact hstatus
  | stopped t =>
    obtain ⟨-, a, hfault, -⟩ := resolve_stopped h
    exact ⟨a, hfault⟩

theorem resolvePair_keepsStatus (src dst : Operand) (s : State) : KeepsStatus s (resolvePair src dst s) :=
  (resolve_keepsStatus src s).andThen fun _ t => (resolve_keepsStatus dst t).andThen fun _ _ => .ok _ rfl

theorem dataWrite_keepsStatus (a v : Word) (s : State) : KeepsStatus s (dataWrite a v s) := by
  rw [dataWrite_eq]
  split
  · rfl
  · exact ⟨a, rfl⟩

theorem update_keepsStatus (p : Phrase) (v : Word) (s : State) : KeepsStatus s (update p v s) := by
  obtain ⟨place, value⟩ := p
  cases place with
  | register r => rfl
  | memory ea => exact dataWrite_keepsStatus ea v s

theorem writeResult_keepsStatus (p : Phrase) (res : Word) (f : Flags) (s : State) :
    KeepsStatus s (writeResult p res f s) :=
  (update_keepsStatus p res s).andThen fun _ _ => .ok _ rfl

theorem status_of_finish {s t : State} {x : Access Unit} (hx : KeepsStatus s x) (h : finish x = .next t) :
    t.status = s.status ∨ ∃ a, t.status = .fault .bounds a := by
  obtain rfl | rfl := finish_eq_next.mp h
  · exact .inl hx
  · exact .inr hx

theorem exec_halt (s : State) : exec .halt s = .next (s.setStatus .halted) := rfl

/-- Every instruction but HALT keeps the status or records a bounds fault. -/
theorem status_of_exec {i : Instr} {s t : State} (hi : i ≠ .halt) (h : exec i s = .next t) :
    t.status = s.status ∨ ∃ a, t.status = .fault .bounds a := by
  cases i with
  | mov src dst =>
    exact status_of_finish ((resolvePair_keepsStatus src dst s).andThen fun _ _ => writeResult_keepsStatus ..) h
  | cmp src dst =>
    exact status_of_finish ((resolvePair_keepsStatus src dst s).andThen fun _ t => .ok () (State.setFlags_status t _)) h
  | add src dst =>
    exact status_of_finish ((resolvePair_keepsStatus src dst s).andThen fun _ _ => writeResult_keepsStatus ..) h
  | sub src dst =>
    exact status_of_finish ((resolvePair_keepsStatus src dst s).andThen fun _ _ => writeResult_keepsStatus ..) h
  | asl dst => exact status_of_finish ((resolve_keepsStatus dst s).andThen fun _ _ => writeResult_keepsStatus ..) h
  | asr dst => exact status_of_finish ((resolve_keepsStatus dst s).andThen fun _ _ => writeResult_keepsStatus ..) h
  | sob r off => cases h; exact .inl (branchWhen_status ..)
  | br off => cases h; exact .inl (branchWhen_status ..)
  | bne off => cases h; exact .inl (branchWhen_status ..)
  | beq off => cases h; exact .inl (branchWhen_status ..)
  | halt => exact absurd rfl hi

/-! ### The decode fault -/

/-- No instruction raises a decode fault: started while running, it records none. -/
theorem status_of_exec_ne_decode {i : Instr} {s t : State} (hrun : s.status = .running) (h : exec i s = .next t)
    (w : Word) : t.status ≠ .fault .decode w := by
  intro hdecode
  by_cases hi : i = .halt
  · subst hi
    rw [exec_halt] at h
    cases h
    cases hdecode
  · obtain hkept | ⟨a, hbounds⟩ := status_of_exec hi h
    · cases hdecode.symm.trans (hkept.trans hrun)
    · cases hdecode.symm.trans hbounds

/-- After the fetch a decode fault is recorded of the fetched word, and only where it does not decode. -/
theorem decodeWord_none_of_runFetched {w v : Word} {s t : State} (hrun : s.status = .running)
    (h : runFetched w s = .next t) (hdecode : t.status = .fault .decode v) : v = w ∧ decodeWord w = none := by
  cases hi : decodeWord w with
  | none =>
    rw [runFetched_of_decodeWord_none s hi] at h
    cases h
    cases hdecode
    exact ⟨rfl, rfl⟩
  | some i =>
    rw [runFetched_of_decodeWord_some s hi] at h
    obtain ⟨u, hu, rfl⟩ := retire_eq_next.mp h
    rw [completeStep_status] at hdecode
    exact absurd hdecode (status_of_exec_ne_decode hrun hu v)

/-- Settles O8: an invalid word at the PC is fetched and then faults, which leaves the state after the fetch but for the status;
a step that records a decode fault did not stop at the fetch, so it ran the word at the PC, and no instruction records one. -/
theorem invalidWordRaisesDecodeFault : Obligations.InvalidWordRaisesDecodeFault := by
  refine ⟨fun s hrun hin hnone => ?raised, fun s t w hstep hdecode => ?recorded⟩
  case raised =>
    exact ⟨_, (step_of_pc_inBounds hrun hin).trans (runFetched_of_decodeWord_none _ hnone), rfl, State.setPc_pc ..,
      fun q hq => State.setPc_reg_of_ne _ _ hq, rfl, rfl, rfl, rfl⟩
  case recorded =>
    have hrun := running_of_step_eq_next hstep
    by_cases hin : s.inBounds s.pc
    · have hfetched : ((countFetch s).setPc (s.pc + wordStep)).status = .running := hrun
      rw [step_of_pc_inBounds hrun hin] at hstep
      obtain ⟨rfl, hnone⟩ := decodeWord_none_of_runFetched hfetched hstep hdecode
      exact ⟨hin, rfl, hnone⟩
    · rw [step_of_pc_outside hrun hin] at hstep
      cases hstep
      cases hdecode

end Sys2Proof.Machine

/-! PROOFS. The encoding: the fields of each format, and that decoder and encoder are inverse (30_encoding.md sections 2 to 4;
41_decoder_and_loop.md section 1). -/

namespace Sys2Proof

/-! ### Specifiers -/

@[simp] theorem modeOfField_modeField (m : Mode) : modeOfField (modeField m) = m := by
  cases m <;> rfl

@[simp] theorem modeField_modeOfField (b : BitVec 3) : modeField (modeOfField b) = b := by
  revert b
  decide

@[simp] theorem regOfField_regField (r : Reg) : regOfField (regField r) = r :=
  Fin.ext (Nat.mod_eq_of_lt r.isLt)

@[simp] theorem regField_regOfField (b : BitVec 3) : regField (regOfField b) = b := by
  rw [regField, regOfField, BitVec.ofNat_toNat, BitVec.setWidth_eq]

@[simp] theorem operandField_mode (o : Operand) : (operandField o).extractLsb' 3 3 = modeField o.mode := by
  rw [operandField, BitVec.extractLsb'_append_eq_of_le (Nat.le_refl 3), Nat.sub_self, BitVec.extractLsb'_eq_self]

@[simp] theorem operandField_reg (o : Operand) : (operandField o).extractLsb' 0 3 = regField o.reg := by
  rw [operandField, BitVec.extractLsb'_append_eq_of_add_le (Nat.le_refl 3), BitVec.extractLsb'_eq_self]

/-! ### The fields of each format -/

/-- A field above the specifiers of format D is a field of its opcode; so for the other three formats. -/
theorem field_formatD (op : BitVec 4) (src dst : Operand) (k len : Nat) :
    field (formatD op src dst) (12 + k) len = op.extractLsb' k len := by
  rw [field, formatD, BitVec.extractLsb'_append_eq_of_le (by omega), BitVec.extractLsb'_append_eq_of_le (by omega)]
  congr 1
  omega

theorem field_formatS (op : BitVec 10) (dst : Operand) (k len : Nat) :
    field (formatS op dst) (6 + k) len = op.extractLsb' k len := by
  rw [field, formatS, BitVec.extractLsb'_append_eq_of_le (by omega), Nat.add_sub_cancel_left]

theorem field_formatB (op : BitVec 8) (off : Int) (k len : Nat) :
    field (formatB op off) (8 + k) len = op.extractLsb' k len := by
  rw [field, formatB, BitVec.extractLsb'_append_eq_of_le (by omega), Nat.add_sub_cancel_left]

theorem field_formatR (op : BitVec 7) (r : Reg) (off k len : Nat) :
    field (formatR op r off) (9 + k) len = op.extractLsb' k len := by
  rw [field, formatR, BitVec.extractLsb'_append_eq_of_le (by omega), BitVec.extractLsb'_append_eq_of_le (by omega)]
  congr 1
  omega

@[simp] theorem srcOperand_formatD (op : BitVec 4) (src dst : Operand) : srcOperand (formatD op src dst) = src := by
  have hsrc (k : Nat) (hk : k + 3 ≤ 6) : field (formatD op src dst) (6 + k) 3 = (operandField src).extractLsb' k 3 := by
    rw [field, formatD, BitVec.extractLsb'_append_eq_of_le (by omega), BitVec.extractLsb'_append_eq_of_add_le (by omega),
      Nat.add_sub_cancel_left]
  rw [srcOperand, hsrc 3 (by decide), hsrc 0 (by decide), operandField_mode, operandField_reg, modeOfField_modeField,
    regOfField_regField]

/-- The destination stands in the low six bits, whatever is above it. -/
theorem dstOperand_append (hi : BitVec 10) (dst : Operand) : dstOperand (hi ++ operandField dst) = dst := by
  have hdst (k : Nat) (hk : k + 3 ≤ 6) : field (hi ++ operandField dst) k 3 = (operandField dst).extractLsb' k 3 := by
    rw [field, BitVec.extractLsb'_append_eq_of_add_le hk]
  rw [dstOperand, hdst 3 (by decide), hdst 0 (by decide), operandField_mode, operandField_reg, modeOfField_modeField,
    regOfField_regField]

@[simp] theorem dstOperand_formatD (op : BitVec 4) (src dst : Operand) : dstOperand (formatD op src dst) = dst :=
  dstOperand_append (op ++ operandField src) dst

@[simp] theorem dstOperand_formatS (op : BitVec 10) (dst : Operand) : dstOperand (formatS op dst) = dst :=
  dstOperand_append op dst

@[simp] theorem regOfField_formatR (op : BitVec 7) (r : Reg) (off : Nat) : regOfField (field (formatR op r off) 6 3) = r := by
  have hreg : field (formatR op r off) 6 3 = regField r := by
    rw [field, formatR, BitVec.extractLsb'_append_eq_of_le (by decide), BitVec.extractLsb'_append_eq_of_add_le (by decide)]
    exact BitVec.extractLsb'_eq_self
  rw [hreg, regOfField_regField]

/-- A SOB offset that fits comes back from its field. -/
theorem sobOffset_formatR (op : BitVec 7) (r : Reg) {off : Nat} (h : sobOffsetFits off = true) :
    sobOffset (formatR op r off) = off := by
  have hoff : off ≤ 63 := of_decide_eq_true h
  rw [sobOffset, field, formatR, BitVec.extractLsb'_append_eq_of_add_le (by decide), BitVec.extractLsb'_eq_self,
    BitVec.toNat_ofNat]
  omega

/-- A branch offset that fits comes back from its field, sign-extended. -/
theorem branchOffset_formatB (op : BitVec 8) {off : Int} (h : branchOffsetFits off = true) :
    branchOffset (formatB op off) = off := by
  obtain ⟨hlow, hhigh⟩ : -128 ≤ off ∧ off ≤ 127 := by simpa [branchOffsetFits] using h
  rw [branchOffset, field, formatB, BitVec.extractLsb'_append_eq_of_add_le (by decide), BitVec.extractLsb'_eq_self,
    BitVec.toInt_ofInt]
  exact Int.bmod_eq_of_le hlow (by omega)

/-! ### The opcode fields the tiers read -/

@[simp] theorem field_formatD_op4 (op : BitVec 4) (src dst : Operand) : field (formatD op src dst) 12 4 = op :=
  (field_formatD op src dst 0 4).trans BitVec.extractLsb'_eq_self

@[simp] theorem field_formatR_op4 (op : BitVec 7) (r : Reg) (off : Nat) :
    field (formatR op r off) 12 4 = op.extractLsb' 3 4 := field_formatR op r off 3 4

@[simp] theorem field_formatR_op7 (op : BitVec 7) (r : Reg) (off : Nat) : field (formatR op r off) 9 7 = op :=
  (field_formatR op r off 0 7).trans BitVec.extractLsb'_eq_self

@[simp] theorem field_formatB_op4 (op : BitVec 8) (off : Int) : field (formatB op off) 12 4 = op.extractLsb' 4 4 :=
  field_formatB op off 4 4

@[simp] theorem field_formatB_op7 (op : BitVec 8) (off : Int) : field (formatB op off) 9 7 = op.extractLsb' 1 7 :=
  field_formatB op off 1 7

@[simp] theorem field_formatB_op8 (op : BitVec 8) (off : Int) : field (formatB op off) 8 8 = op :=
  (field_formatB op off 0 8).trans BitVec.extractLsb'_eq_self

@[simp] theorem field_formatS_op4 (op : BitVec 10) (dst : Operand) : field (formatS op dst) 12 4 = op.extractLsb' 6 4 :=
  field_formatS op dst 6 4

@[simp] theorem field_formatS_op7 (op : BitVec 10) (dst : Operand) : field (formatS op dst) 9 7 = op.extractLsb' 3 7 :=
  field_formatS op dst 3 7

@[simp] theorem field_formatS_op8 (op : BitVec 10) (dst : Operand) : field (formatS op dst) 8 8 = op.extractLsb' 2 8 :=
  field_formatS op dst 2 8

@[simp] theorem field_formatS_op10 (op : BitVec 10) (dst : Operand) : field (formatS op dst) 6 10 = op :=
  (field_formatS op dst 0 10).trans BitVec.extractLsb'_eq_self

/-! ### Decoding an encoded instruction -/

/-- Settles O1: every field the cascade reads of an encoded word is a field of its format, so each tier before the instruction's
own sees another opcode, and its own gives the operands back; an offset that fits comes back from its field. -/
theorem decodeOfEncodeIsTheInstruction : Obligations.DecodeOfEncodeIsTheInstruction := by
  intro i hfits
  cases i with
  | mov src dst => simp [encode, decodeWord, decodeTier4]
  | cmp src dst => simp [encode, decodeWord, decodeTier4]
  | add src dst => simp [encode, decodeWord, decodeTier4]
  | sub src dst => simp [encode, decodeWord, decodeTier4]
  | sob r off => simp [encode, decodeWord, decodeTier4, decodeTier7, sobOffset_formatR _ r hfits]
  | br off => simp [encode, decodeWord, decodeTier4, decodeTier7, decodeTier8, branchOffset_formatB _ hfits]
  | bne off => simp [encode, decodeWord, decodeTier4, decodeTier7, decodeTier8, branchOffset_formatB _ hfits]
  | beq off => simp [encode, decodeWord, decodeTier4, decodeTier7, decodeTier8, branchOffset_formatB _ hfits]
  | asr dst => simp [encode, decodeWord, decodeTier4, decodeTier7, decodeTier8, decodeTier10]
  | asl dst => simp [encode, decodeWord, decodeTier4, decodeTier7, decodeTier8, decodeTier10]
  | halt => rfl

/-! ### A word put together again from its fields -/

/-- Two neighbouring fields are one field. -/
theorem field_append_field (w : Word) {hi lo : Nat} (n m : Nat) (h : hi = lo + m) :
    field w hi n ++ field w lo m = field w lo (n + m) :=
  BitVec.extractLsb'_append_extractLsb'_eq_extractLsb' h

theorem operandField_srcOperand (w : Word) : operandField (srcOperand w) = field w 6 6 := by
  rw [operandField, srcOperand, modeField_modeOfField, regField_regOfField]
  exact field_append_field w 3 3 rfl

theorem operandField_dstOperand (w : Word) : operandField (dstOperand w) = field w 0 6 := by
  rw [operandField, dstOperand, modeField_modeOfField, regField_regOfField]
  exact field_append_field w 3 3 rfl

/-- A word is the format of its own fields, here format D; so for the other three. -/
theorem formatD_of_fields {w : Word} {op : BitVec 4} (hop : field w 12 4 = op) :
    formatD op (srcOperand w) (dstOperand w) = w := by
  subst hop
  have hhigh : field w 12 4 ++ field w 6 6 = field w 6 10 := field_append_field w 4 6 rfl
  rw [formatD, operandField_srcOperand, operandField_dstOperand, hhigh]
  exact (field_append_field w 10 6 rfl).trans BitVec.extractLsb'_eq_self

theorem formatS_of_fields {w : Word} {op : BitVec 10} (hop : field w 6 10 = op) :
    formatS op (dstOperand w) = w := by
  subst hop
  rw [formatS, operandField_dstOperand]
  exact (field_append_field w 10 6 rfl).trans BitVec.extractLsb'_eq_self

theorem formatB_of_fields {w : Word} {op : BitVec 8} (hop : field w 8 8 = op) :
    formatB op (branchOffset w) = w := by
  subst hop
  rw [formatB, branchOffset, BitVec.ofInt_toInt]
  exact (field_append_field w 8 8 rfl).trans BitVec.extractLsb'_eq_self

theorem formatR_of_fields {w : Word} {op : BitVec 7} (hop : field w 9 7 = op) :
    formatR op (regOfField (field w 6 3)) (sobOffset w) = w := by
  subst hop
  have hhigh : field w 9 7 ++ field w 6 3 = field w 6 10 := field_append_field w 7 3 rfl
  rw [formatR, regField_regOfField, sobOffset, BitVec.ofNat_toNat, BitVec.setWidth_eq, hhigh]
  exact (field_append_field w 10 6 rfl).trans BitVec.extractLsb'_eq_self

/-- What a branch field holds fits: it is the value of eight signed bits. -/
theorem branchOffsetFits_branchOffset (w : Word) : branchOffsetFits (branchOffset w) = true := by
  have hlow := BitVec.le_toInt (field w 0 8)
  have hhigh := BitVec.toInt_lt (x := field w 0 8)
  rw [branchOffsetFits, branchOffset, Bool.and_eq_true, decide_eq_true_iff, decide_eq_true_iff]
  omega

theorem sobOffsetFits_sobOffset (w : Word) : sobOffsetFits (sobOffset w) = true := by
  have hlt := (field w 0 6).isLt
  rw [sobOffsetFits, sobOffset, decide_eq_true_iff]
  omega

/-! ### What each tier decodes -/

/-- The instruction is well-formed and the word is its encoding. -/
def EncodesTo (i : Instr) (w : Word) : Prop := i.wellFormed = true ∧ encode i = w

theorem encodesTo_of_decodeTier4 {w : Word} {i : Instr} (h : decodeTier4 w = some i) : EncodesTo i w := by
  unfold decodeTier4 at h
  split_ifs at h with hmov hcmp hadd hsub <;> cases h
  · exact ⟨rfl, formatD_of_fields hmov⟩
  · exact ⟨rfl, formatD_of_fields hcmp⟩
  · exact ⟨rfl, formatD_of_fields hadd⟩
  · exact ⟨rfl, formatD_of_fields hsub⟩

theorem encodesTo_of_decodeTier7 {w : Word} {i : Instr} (h : decodeTier7 w = some i) : EncodesTo i w := by
  unfold decodeTier7 at h
  split_ifs at h with hsob
  cases h
  exact ⟨sobOffsetFits_sobOffset w, formatR_of_fields hsob⟩

theorem encodesTo_of_decodeTier8 {w : Word} {i : Instr} (h : decodeTier8 w = some i) : EncodesTo i w := by
  unfold decodeTier8 at h
  split_ifs at h with hbr hbne hbeq <;> cases h
  · exact ⟨branchOffsetFits_branchOffset w, formatB_of_fields hbr⟩
  · exact ⟨branchOffsetFits_branchOffset w, formatB_of_fields hbne⟩
  · exact ⟨branchOffsetFits_branchOffset w, formatB_of_fields hbeq⟩

theorem encodesTo_of_decodeTier10 {w : Word} {i : Instr} (h : decodeTier10 w = some i) : EncodesTo i w := by
  unfold decodeTier10 at h
  split_ifs at h with hasr hasl <;> cases h
  · exact ⟨rfl, formatS_of_fields hasr⟩
  · exact ⟨rfl, formatS_of_fields hasl⟩

theorem encodesTo_of_decodeTierZero {w : Word} {i : Instr} (h : decodeTierZero w = some i) : EncodesTo i w := by
  unfold decodeTierZero at h
  split_ifs at h with hzero
  cases h
  exact ⟨rfl, hzero.symm⟩

/-- Settles O2: the tier that decodes a word found its opcode field there, and the operands it gives are the word's other
fields, so that the format puts the word together again. -/
theorem encodeOfDecodeIsTheWord : Obligations.EncodeOfDecodeIsTheWord := by
  intro w i h
  simp only [decodeWord, Option.or_eq_some_iff] at h
  obtain h4 | ⟨-, h7 | ⟨-, h8 | ⟨-, h10 | ⟨-, hzero⟩⟩⟩⟩ := h
  · exact encodesTo_of_decodeTier4 h4
  · exact encodesTo_of_decodeTier7 h7
  · exact encodesTo_of_decodeTier8 h8
  · exact encodesTo_of_decodeTier10 h10
  · exact encodesTo_of_decodeTierZero hzero

/-! ### The words that do not decode -/

/-- A word is invalid exactly where each tier finds none of its opcodes. -/
theorem decodeWord_eq_none_iff {w : Word} :
    decodeWord w = none ↔
      (field w 12 4 ≠ 1#4 ∧ field w 12 4 ≠ 2#4 ∧ field w 12 4 ≠ 6#4 ∧ field w 12 4 ≠ 14#4) ∧ field w 9 7 ≠ 0o77#7 ∧
      (field w 8 8 ≠ 1#8 ∧ field w 8 8 ≠ 2#8 ∧ field w 8 8 ≠ 3#8) ∧
      (field w 6 10 ≠ 0o62#10 ∧ field w 6 10 ≠ 0o63#10) ∧ w ≠ 0#16 := by
  simp [decodeWord, decodeTier4, decodeTier7, decodeTier8, decodeTier10, decodeTierZero, ite_eq_iff]

/-- A field at the top of a word has a value exactly on a range of the word. -/
theorem field_eq_ofNat_iff (w : Word) {lo len n : Nat} (hlen : lo + len = 16) (hn : n < 2 ^ len) :
    field w lo len = BitVec.ofNat len n ↔ n * 2 ^ lo ≤ w.toNat ∧ w.toNat < (n + 1) * 2 ^ lo := by
  have hdiv : w.toNat / 2 ^ lo < 2 ^ len := by
    rw [Nat.div_lt_iff_lt_mul (Nat.two_pow_pos lo), ← Nat.pow_add, Nat.add_comm, hlen]
    exact w.isLt
  rw [BitVec.toNat_eq, field, BitVec.extractLsb'_toNat, Nat.shiftRight_eq_div_pow, BitVec.toNat_ofNat,
    Nat.mod_eq_of_lt hdiv, Nat.mod_eq_of_lt hn, Nat.div_eq_iff (Nat.two_pow_pos lo)]
  have hpos := Nat.two_pow_pos lo
  rw [Nat.add_mul, Nat.one_mul, Nat.mul_comm]
  omega

/-- Settles O5: each opcode is a range of the word, and the seven ranges are what the eleven leave out. -/
theorem invalidWordsAreTheSevenRanges : Obligations.InvalidWordsAreTheSevenRanges := by
  intro w
  have hlt := w.isLt
  have hzero : w = 0#16 ↔ w.toNat = 0 := BitVec.toNat_eq
  simp (disch := decide) only [decodeWord_eq_none_iff, ne_eq, hzero, field_eq_ofNat_iff]
  omega

/-! ### The masked-match table -/

/-- Settles O4: a word selected by two rows carries both patterns where their masks overlap, and there any two rows differ. -/
theorem opcodePatternsAreDisjoint : Obligations.OpcodePatternsAreDisjoint := by
  intro w p q hp hq hpw hqw
  have hdisjoint : ∀ p ∈ opcodeMap, ∀ q ∈ opcodeMap, p.pattern &&& q.mask = q.pattern &&& p.mask → p = q := by decide
  refine hdisjoint p hp q hq ?_
  rw [← of_decide_eq_true hpw, ← of_decide_eq_true hqw, BitVec.and_assoc, BitVec.and_assoc, BitVec.and_comm p.mask]

/-- Where a row's mask covers a field, the word it selects has the pattern's field. -/
theorem field_of_selects {row : OpcodeRow} {w : Word} (lo len : Nat) (hmask : field row.mask lo len = BitVec.allOnes len)
    (h : row.selects w = true) : field w lo len = field row.pattern lo len := by
  have hand : field (w &&& row.mask) lo len = field w lo len &&& field row.mask lo len := BitVec.extractLsb'_and
  rw [← of_decide_eq_true h, hand, hmask, BitVec.and_allOnes]

/-- A word that a row selects decodes. -/
theorem decodeWord_ne_none_of_selects {row : OpcodeRow} {w : Word} (hrow : row ∈ opcodeMap) (h : row.selects w = true) :
    decodeWord w ≠ none := by
  rw [ne_eq, decodeWord_eq_none_iff]
  rintro ⟨⟨hmov, hcmp, hadd, hsub⟩, hsob, ⟨hbr, hbne, hbeq⟩, ⟨hasr, hasl⟩, hhalt⟩
  simp only [opcodeMap, List.mem_cons, List.not_mem_nil, or_false] at hrow
  obtain rfl | rfl | rfl | rfl | rfl | rfl | rfl | rfl | rfl | rfl | rfl := hrow
  · exact hmov (field_of_selects 12 4 rfl h)
  · exact hcmp (field_of_selects 12 4 rfl h)
  · exact hadd (field_of_selects 12 4 rfl h)
  · exact hsub (field_of_selects 12 4 rfl h)
  · exact hsob (field_of_selects 9 7 rfl h)
  · exact hbr (field_of_selects 8 8 rfl h)
  · exact hbne (field_of_selects 8 8 rfl h)
  · exact hbeq (field_of_selects 8 8 rfl h)
  · exact hasr (field_of_selects 6 10 rfl h)
  · exact hasl (field_of_selects 6 10 rfl h)
  · exact hhalt (BitVec.extractLsb'_eq_self.symm.trans (field_of_selects 0 16 rfl h))

/-- The row with an instruction's mnemonic selects the word it is encoded to. -/
theorem selectsItsRow (i : Instr) : Laws.SelectsItsRow.Statement i := by
  cases i with
  | mov src dst => exact Laws.SelectsItsRow.mov src dst
  | cmp src dst => exact Laws.SelectsItsRow.cmp src dst
  | add src dst => exact Laws.SelectsItsRow.add src dst
  | sub src dst => exact Laws.SelectsItsRow.sub src dst
  | sob r off => exact Laws.SelectsItsRow.sob r off
  | br off => exact Laws.SelectsItsRow.br off
  | bne off => exact Laws.SelectsItsRow.bne off
  | beq off => exact Laws.SelectsItsRow.beq off
  | asr dst => exact Laws.SelectsItsRow.asr dst
  | asl dst => exact Laws.SelectsItsRow.asl dst
  | halt => exact Laws.SelectsItsRow.halt

/-- Settles O3: a word that decodes is the encoding of what it decodes to, so the row of that mnemonic selects it, and no other
row does; a word that does not decode has none of the opcodes, so no row selects it. -/
theorem cascadeAgreesWithMaskedMatchTable : Obligations.CascadeAgreesWithMaskedMatchTable := by
  intro w
  cases hi : decodeWord w with
  | none =>
    have hnone : (opcodeMap.find? fun row => row.selects w) = none :=
      List.find?_eq_none.mpr fun row hrow hsel => decodeWord_ne_none_of_selects hrow hsel hi
    rw [hnone]
    rfl
  | some i =>
    obtain ⟨hfits, hword⟩ := encodeOfDecodeIsTheWord w i hi
    obtain ⟨row, hrow, hname, hsel⟩ := selectsItsRow i hfits
    rw [hword] at hsel
    cases hfind : opcodeMap.find? fun row => row.selects w with
    | none => exact absurd hsel (List.find?_eq_none.mp hfind row hrow)
    | some found =>
      have hsame : found = row :=
        opcodePatternsAreDisjoint w found row (List.mem_of_find?_eq_some hfind) hrow (by simpa using List.find?_some hfind) hsel
      rw [Option.map_some, Option.map_some, hsame, hname]

/-- Settles O6: the decoder evaluated on the six words. -/
theorem writtenOutWordsDecode : Obligations.WrittenOutWordsDecode := by
  unfold Obligations.WrittenOutWordsDecode
  decide

end Sys2Proof

/-! PROOFS. What the machine does not read: one simulation theorem for two machines that agree in all an instruction reads, and
its two uses, the counters (10_state.md section 5) and N, V and C (10_state.md section 3). -/

namespace Sys2Proof.Machine

/-! ### Machines that cannot be told apart by a step -/

/-- States that `R` relates agree in everything the machine reads, and every update of a field keeps them related. -/
structure Oblivious (R : State → State → Prop) : Prop where
  reg {s s' : State} : R s s' → ∀ q, s'.reg q = s.reg q
  z {s s' : State} : R s s' → s'.flags.z = s.flags.z
  status {s s' : State} : R s s' → s'.status = s.status
  mem {s s' : State} : R s s' → s'.mem = s.mem
  memWords {s s' : State} : R s s' → s'.memWords = s.memWords
  setReg {s s' : State} (r : Reg) (v : Word) : R s s' → R (s.setReg r v) (s'.setReg r v)
  setFlags {s s' : State} (f : Flags) : R s s' → R (s.setFlags f) (s'.setFlags f)
  setStatus {s s' : State} (x : Status) : R s s' → R (s.setStatus x) (s'.setStatus x)
  setMem {s s' : State} (m : Memory) : R s s' → R (s.setMem m) (s'.setMem m)
  countInstr {s s' : State} : R s s' → R (countInstr s) (countInstr s')
  countFetch {s s' : State} : R s s' → R (countFetch s) (countFetch s')
  countRead {s s' : State} : R s s' → R (countRead s) (countRead s')
  countWrite {s s' : State} : R s s' → R (countWrite s) (countWrite s')
  countBranch {s s' : State} : R s s' → R (countBranch s) (countBranch s')
  countTaken {s s' : State} : R s s' → R (countTaken s) (countTaken s')

/-- Two accesses that end alike: with one value, or both stopped, in related states. -/
inductive AlikeAccess (R : State → State → Prop) {α : Type} : Access α → Access α → Prop where
  | ok {s s' : State} (v : α) (h : R s s') : AlikeAccess R (.ok v s) (.ok v s')
  | stopped {s s' : State} (h : R s s') : AlikeAccess R (.stopped s) (.stopped s')

/-- Two outcomes that are both a next state, the two related. -/
inductive AlikeOutcome (R : State → State → Prop) :
    Host.Outcome State Fault Refusal → Host.Outcome State Fault Refusal → Prop where
  | next {s s' : State} (h : R s s') : AlikeOutcome R (.next s) (.next s')

theorem AlikeAccess.andThen {R : State → State → Prop} {α β : Type} {x x' : Access α} {f : α → State → Access β}
    (hx : AlikeAccess R x x') (hf : ∀ v t t', R t t' → AlikeAccess R (f v t) (f v t')) :
    AlikeAccess R (x.andThen f) (x'.andThen f) := by
  cases hx with
  | ok v h => exact hf v _ _ h
  | stopped h => exact .stopped h

theorem AlikeAccess.finish {R : State → State → Prop} {x x' : Access Unit} (hx : AlikeAccess R x x') :
    AlikeOutcome R (finish x) (finish x') := by
  cases hx with
  | ok v h => exact .next h
  | stopped h => exact .next h

section
variable {R : State → State → Prop} (hR : Oblivious R) {s s' : State}
include hR

/-! ### The shared operations -/

theorem Oblivious.inBounds (h : R s s') (a : Word) : s'.inBounds a = s.inBounds a :=
  State.inBounds_congr (hR.memWords h) a

theorem Oblivious.wordAt (h : R s s') (a : Word) : s'.wordAt a = s.wordAt a := by
  rw [State.wordAt, State.wordAt, hR.mem h]

theorem Oblivious.pc (h : R s s') : s'.pc = s.pc := hR.reg h pcReg

theorem Oblivious.raiseFault (k : FaultKind) (i : Word) (h : R s s') : R (raiseFault k i s) (raiseFault k i s') :=
  hR.setStatus _ h

theorem Oblivious.fetchWord (h : R s s') : AlikeAccess R (fetchWord s) (fetchWord s') := by
  rw [fetchWord_eq, fetchWord_eq, hR.pc h, hR.inBounds h, hR.wordAt h]
  split
  · exact .ok _ (hR.setReg _ _ (hR.countFetch h))
  · exact .stopped (hR.raiseFault _ _ h)

theorem Oblivious.dataRead (a : Word) (h : R s s') : AlikeAccess R (dataRead a s) (dataRead a s') := by
  rw [dataRead_eq, dataRead_eq, hR.inBounds h, hR.wordAt h]
  split
  · exact .ok _ (hR.countRead h)
  · exact .stopped (hR.raiseFault _ _ h)

theorem Oblivious.dataWrite (a v : Word) (h : R s s') : AlikeAccess R (dataWrite a v s) (dataWrite a v s') := by
  rw [dataWrite_eq, dataWrite_eq, hR.inBounds h, hR.mem h]
  split
  · exact .ok _ (hR.countWrite (hR.setMem _ h))
  · exact .stopped (hR.raiseFault _ _ h)

theorem Oblivious.branchWhen (b : Bool) (d : Int) (h : R s s') : R (branchWhen b d s) (branchWhen b d s') := by
  cases b with
  | false => exact hR.countBranch h
  | true =>
    rw [branchWhen_true, branchWhen_true, hR.pc h]
    exact hR.countTaken (hR.setReg _ _ (hR.countBranch h))

theorem Oblivious.completeStep (h : R s s') : R (completeStep s) (completeStep s') := by
  unfold Machine.completeStep
  rw [hR.status h]
  split
  · exact h
  · exact hR.countInstr h

/-! ### Operands -/

theorem Oblivious.operandAt (ea : Word) (h : R s s') : AlikeAccess R (operandAt ea s) (operandAt ea s') :=
  (hR.dataRead ea h).andThen fun _ _ _ ht => .ok _ ht

theorem Oblivious.resolve (o : Operand) (h : R s s') : AlikeAccess R (resolve o s) (resolve o s') := by
  obtain ⟨m, r⟩ := o
  have hback : R (stepBack r s) (stepBack r s') := by
    rw [stepBack, stepBack, hR.reg h]
    exact hR.setReg _ _ h
  cases m with
  | register =>
    show AlikeAccess R (resolveRegister r s) (resolveRegister r s')
    rw [resolveRegister, resolveRegister, hR.reg h]
    exact .ok _ h
  | indirect =>
    show AlikeAccess R (resolveIndirect r s) (resolveIndirect r s')
    rw [resolveIndirect, resolveIndirect, hR.reg h]
    exact hR.operandAt _ h
  | autoInc =>
    simp only [Machine.resolve]
    split
    · rw [resolveImmediate, resolveImmediate, hR.pc h]
      exact (hR.fetchWord h).andThen fun _ _ _ ht => .ok _ ht
    · rw [resolveAutoInc, resolveAutoInc, hR.reg h]
      refine (hR.operandAt _ h).andThen fun p t t' ht => ?_
      rw [hR.reg ht]
      exact .ok p (hR.setReg _ _ ht)
  | autoIncDeferred =>
    simp only [Machine.resolve]
    split
    · exact (hR.fetchWord h).andThen fun ea _ _ ht => hR.operandAt ea ht
    · rw [resolveAutoIncDeferred, resolveAutoIncDeferred, hR.reg h]
      refine (hR.dataRead _ h).andThen fun ea t t' ht => ?_
      rw [hR.reg ht]
      exact hR.operandAt ea (hR.setReg _ _ ht)
  | autoDec =>
    show AlikeAccess R (resolveAutoDec r s) (resolveAutoDec r s')
    rw [resolveAutoDec, resolveAutoDec, hR.reg hback]
    exact hR.operandAt _ hback
  | autoDecDeferred =>
    show AlikeAccess R (resolveAutoDecDeferred r s) (resolveAutoDecDeferred r s')
    rw [resolveAutoDecDeferred, resolveAutoDecDeferred, hR.reg hback]
    exact (hR.dataRead _ hback).andThen fun ea _ _ ht => hR.operandAt ea ht
  | index =>
    refine (hR.fetchWord h).andThen fun x t t' ht => ?_
    rw [hR.reg ht]
    exact hR.operandAt _ ht
  | indexDeferred =>
    refine (hR.fetchWord h).andThen fun x t t' ht => ?_
    rw [hR.reg ht]
    exact (hR.dataRead _ ht).andThen fun ea _ _ hu => hR.operandAt ea hu

theorem Oblivious.resolvePair (src dst : Operand) (h : R s s') :
    AlikeAccess R (resolvePair src dst s) (resolvePair src dst s') :=
  (hR.resolve src h).andThen fun _ _ _ ht => (hR.resolve dst ht).andThen fun _ _ _ hu => .ok _ hu

theorem Oblivious.update (p : Phrase) (v : Word) (h : R s s') : AlikeAccess R (update p v s) (update p v s') := by
  obtain ⟨place, value⟩ := p
  cases place with
  | register r => exact .ok () (hR.setReg r v h)
  | memory ea => exact hR.dataWrite ea v h

theorem Oblivious.writeResult (p : Phrase) (res : Word) (f : Flags) (h : R s s') :
    AlikeAccess R (writeResult p res f s) (writeResult p res f s') :=
  (hR.update p res h).andThen fun _ _ _ ht => .ok () (hR.setFlags f ht)

/-! ### Instructions and steps -/

theorem Oblivious.execSob (r : Reg) (off : Nat) (h : R s s') : AlikeOutcome R (execSob r off s) (execSob r off s') := by
  have hdec : R (s.setReg r (s.reg r - 1#16)) (s'.setReg r (s'.reg r - 1#16)) := by
    rw [hR.reg h]
    exact hR.setReg _ _ h
  simp only [Machine.execSob, hR.reg hdec]
  exact .next (hR.branchWhen _ _ hdec)

theorem Oblivious.exec (i : Instr) (h : R s s') : AlikeOutcome R (exec i s) (exec i s') := by
  cases i with
  | mov src dst => exact AlikeAccess.finish (.andThen (hR.resolvePair src dst h) fun _ _ _ ht => hR.writeResult _ _ _ ht)
  | cmp src dst => exact AlikeAccess.finish (.andThen (hR.resolvePair src dst h) fun _ _ _ ht => .ok () (hR.setFlags _ ht))
  | add src dst => exact AlikeAccess.finish (.andThen (hR.resolvePair src dst h) fun _ _ _ ht => hR.writeResult _ _ _ ht)
  | sub src dst => exact AlikeAccess.finish (.andThen (hR.resolvePair src dst h) fun _ _ _ ht => hR.writeResult _ _ _ ht)
  | asl dst => exact AlikeAccess.finish (.andThen (hR.resolve dst h) fun _ _ _ ht => hR.writeResult _ _ _ ht)
  | asr dst => exact AlikeAccess.finish (.andThen (hR.resolve dst h) fun _ _ _ ht => hR.writeResult _ _ _ ht)
  | sob r off => exact hR.execSob r off h
  | br off => exact .next (hR.branchWhen _ _ h)
  | bne off =>
    rw [exec_bne_of_z off rfl, exec_bne_of_z off (hR.z h)]
    exact .next (hR.branchWhen _ _ h)
  | beq off =>
    rw [exec_beq_of_z off rfl, exec_beq_of_z off (hR.z h)]
    exact .next (hR.branchWhen _ _ h)
  | halt => exact .next (hR.setStatus _ h)

theorem Oblivious.retire {x x' : Host.Outcome State Fault Refusal} (hx : AlikeOutcome R x x') :
    AlikeOutcome R (retire x) (retire x') := by
  cases hx with
  | next h => exact .next (hR.completeStep h)

theorem Oblivious.runFetched (w : Word) (h : R s s') : AlikeOutcome R (runFetched w s) (runFetched w s') := by
  cases hi : decodeWord w with
  | none =>
    rw [runFetched_of_decodeWord_none s hi, runFetched_of_decodeWord_none s' hi]
    exact .next (hR.raiseFault _ _ h)
  | some i =>
    rw [runFetched_of_decodeWord_some s hi, runFetched_of_decodeWord_some s' hi]
    exact hR.retire (hR.exec i h)

/-- Related machines step to related machines. -/
theorem Oblivious.step {t : State} (h : R s s') (hstep : step s = .next t) : ∃ t', step s' = .next t' ∧ R t t' := by
  have hrun := running_of_step_eq_next hstep
  have hrun' := (hR.status h).trans hrun
  have halike : AlikeOutcome R (Machine.step s) (Machine.step s') := by
    by_cases hin : s.inBounds s.pc
    · have hin' : s'.inBounds s'.pc := by rwa [hR.inBounds h, hR.pc h]
      rw [step_of_pc_inBounds hrun hin, step_of_pc_inBounds hrun' hin', hR.wordAt h, hR.pc h]
      exact hR.runFetched _ (hR.setReg _ _ (hR.countFetch h))
    · have hout' : ¬ s'.inBounds s'.pc := by rwa [hR.inBounds h, hR.pc h]
      rw [step_of_pc_outside hrun hin, step_of_pc_outside hrun' hout', hR.pc h]
      exact .next (hR.raiseFault _ _ h)
  rw [hstep] at halike
  cases hs' : Machine.step s' with
  | next t' =>
    rw [hs'] at halike
    cases halike with
    | next ht => exact ⟨t', rfl, ht⟩
  | fault r => rw [hs'] at halike; cases halike
  | refused r => rw [hs'] at halike; cases halike

end

/-! ### The counters -/

/-- `s'` is `s` but for the counters, each of which has moved from `k` in `s'` as far as from `c` in `s`. -/
def CountersMovedAlike (c k : Counters) (s s' : State) : Prop :=
  ∃ j, s' = s.setCounters j ∧
    j.instr + c.instr = k.instr + s.counters.instr ∧ j.fetch + c.fetch = k.fetch + s.counters.fetch ∧
    j.read + c.read = k.read + s.counters.read ∧ j.write + c.write = k.write + s.counters.write ∧
    j.branch + c.branch = k.branch + s.counters.branch ∧ j.taken + c.taken = k.taken + s.counters.taken

theorem oblivious_countersMovedAlike (c k : Counters) : Oblivious (CountersMovedAlike c k) where
  reg := by rintro s _ ⟨j, rfl, -⟩ q; rfl
  z := by rintro s _ ⟨j, rfl, -⟩; rfl
  status := by rintro s _ ⟨j, rfl, -⟩; rfl
  mem := by rintro s _ ⟨j, rfl, -⟩; rfl
  memWords := by rintro s _ ⟨j, rfl, -⟩; rfl
  setReg := by rintro s _ r v ⟨j, rfl, hj⟩; exact ⟨j, rfl, hj⟩
  setFlags := by rintro s _ f ⟨j, rfl, hj⟩; exact ⟨j, rfl, hj⟩
  setStatus := by rintro s _ x ⟨j, rfl, hj⟩; exact ⟨j, rfl, hj⟩
  setMem := by rintro s _ m ⟨j, rfl, hj⟩; exact ⟨j, rfl, hj⟩
  countInstr := by
    rintro s _ ⟨j, rfl, hj⟩
    exact ⟨{ j with instr := j.instr + 1 }, rfl, by simp only [countInstr_counters]; omega⟩
  countFetch := by
    rintro s _ ⟨j, rfl, hj⟩
    exact ⟨{ j with fetch := j.fetch + 1 }, rfl, by simp only [countFetch_counters]; omega⟩
  countRead := by
    rintro s _ ⟨j, rfl, hj⟩
    exact ⟨{ j with read := j.read + 1 }, rfl, by simp only [countRead_counters]; omega⟩
  countWrite := by
    rintro s _ ⟨j, rfl, hj⟩
    exact ⟨{ j with write := j.write + 1 }, rfl, by simp only [countWrite_counters]; omega⟩
  countBranch := by
    rintro s _ ⟨j, rfl, hj⟩
    exact ⟨{ j with branch := j.branch + 1 }, rfl, by simp only [countBranch_counters]; omega⟩
  countTaken := by
    rintro s _ ⟨j, rfl, hj⟩
    exact ⟨{ j with taken := j.taken + 1 }, rfl, by simp only [countTaken_counters]; omega⟩

/-- Settles O17: counters that moved alike cannot be told apart by a step, and none has moved before it. -/
theorem countersInfluenceNothing : Obligations.CountersInfluenceNothing := by
  intro s t k hstep
  have hstart : CountersMovedAlike s.counters k s (s.setCounters k) := ⟨k, rfl, rfl, rfl, rfl, rfl, rfl, rfl⟩
  obtain ⟨t', hstep', j, rfl, hj⟩ := (oblivious_countersMovedAlike s.counters k).step hstart hstep
  exact ⟨j, hstep', hj⟩

/-! ### N, V and C -/

/-- `s'` is `s` but for the flags, which are those of `s` or, where `s` still has the flags `e`, the flags `f`. -/
def FlagsApart (e f : Flags) (s s' : State) : Prop :=
  ∃ g, s' = s.setFlags g ∧ (g = s.flags ∨ (g = f ∧ s.flags = e))

theorem oblivious_flagsApart {e f : Flags} (hz : f.z = e.z) : Oblivious (FlagsApart e f) where
  reg := by rintro s _ ⟨g, rfl, -⟩ q; rfl
  z := by
    rintro s _ ⟨g, rfl, rfl | ⟨rfl, hkept⟩⟩
    · rfl
    · rw [State.setFlags_flags, hz, hkept]
  status := by rintro s _ ⟨g, rfl, -⟩; rfl
  mem := by rintro s _ ⟨g, rfl, -⟩; rfl
  memWords := by rintro s _ ⟨g, rfl, -⟩; rfl
  setReg := by rintro s _ r v ⟨g, rfl, hg⟩; exact ⟨g, rfl, hg⟩
  setFlags := by rintro s _ new ⟨g, rfl, -⟩; exact ⟨new, rfl, .inl rfl⟩
  setStatus := by rintro s _ x ⟨g, rfl, hg⟩; exact ⟨g, rfl, hg⟩
  setMem := by rintro s _ m ⟨g, rfl, hg⟩; exact ⟨g, rfl, hg⟩
  countInstr := by rintro s _ ⟨g, rfl, hg⟩; exact ⟨g, rfl, hg⟩
  countFetch := by rintro s _ ⟨g, rfl, hg⟩; exact ⟨g, rfl, hg⟩
  countRead := by rintro s _ ⟨g, rfl, hg⟩; exact ⟨g, rfl, hg⟩
  countWrite := by rintro s _ ⟨g, rfl, hg⟩; exact ⟨g, rfl, hg⟩
  countBranch := by rintro s _ ⟨g, rfl, hg⟩; exact ⟨g, rfl, hg⟩
  countTaken := by rintro s _ ⟨g, rfl, hg⟩; exact ⟨g, rfl, hg⟩

/-- Settles O18: machines apart in their flags, with one Z, cannot be told apart by a step, and stay apart only until the flags
are replaced. -/
theorem signOverflowCarryInfluenceNothing : Obligations.SignOverflowCarryInfluenceNothing := by
  intro s t f hz hstep
  have hstart : FlagsApart s.flags f s (s.setFlags f) := ⟨f, rfl, .inr ⟨rfl, rfl⟩⟩
  obtain ⟨t', hstep', g, rfl, hg⟩ := (oblivious_flagsApart hz).step hstart hstep
  exact ⟨g, hstep', hg⟩

end Sys2Proof.Machine

/-! PROOFS. The operand resolver mode by mode (40_operand_resolver.md R83 to R92): each answers its phrase where its addresses are
in memory and stops at the first that is not; when an operand resolves (R98) and what it counts (R96). -/

namespace Sys2Proof.Machine

/-! ### The fetch and the data read, in bounds and out -/

@[simp] theorem fetchWord_of_inBounds {s : State} (h : s.inBounds s.pc) :
    fetchWord s = .ok (s.wordAt s.pc) ((countFetch s).setPc (s.pc + wordStep)) := by
  rw [fetchWord_eq, if_pos h]

@[simp] theorem fetchWord_of_outside {s : State} (h : ¬ s.inBounds s.pc) :
    fetchWord s = .stopped (raiseFault .bounds s.pc s) := by
  rw [fetchWord_eq, if_neg h]

@[simp] theorem dataRead_of_inBounds {a : Word} {s : State} (h : s.inBounds a) :
    dataRead a s = .ok (s.wordAt a) (countRead s) := by
  rw [dataRead_eq, if_pos h]

@[simp] theorem dataRead_of_outside {a : Word} {s : State} (h : ¬ s.inBounds a) :
    dataRead a s = .stopped (raiseFault .bounds a s) := by
  rw [dataRead_eq, if_neg h]

/-- Settles O22: in bounds the state is the one before with the fetch counted and the PC one word further, and that sum is taken
modulo 2^16. -/
theorem fetchAdvancesThePcAndCounts : Obligations.FetchAdvancesThePcAndCounts := by
  intro s
  refine ⟨fun hin => ⟨_, fetchWord_of_inBounds hin, ?pc, fun q hq => State.setPc_reg_of_ne _ _ hq, rfl, rfl, rfl, rfl, rfl⟩,
    fetchWord_of_outside⟩
  case pc =>
    rw [State.setPc_pc]
    exact BitVec.toNat_add s.pc wordStep

/-! ### An operand behind a pointer -/

theorem deferred_of_inBounds {a : Word} {s : State} (h : s.inBounds a) (h' : s.inBounds (s.wordAt a)) :
    (dataRead a s).andThen operandAt =
      .ok ⟨.memory (s.wordAt a), s.wordAt (s.wordAt a)⟩ (countRead (countRead s)) := by
  rw [dataRead_of_inBounds h]
  exact operandAt_of_inBounds h'

theorem deferred_of_target_outside {a : Word} {s : State} (h : s.inBounds a) (h' : ¬ s.inBounds (s.wordAt a)) :
    (dataRead a s).andThen operandAt = .stopped (raiseFault .bounds (s.wordAt a) (countRead s)) := by
  rw [dataRead_of_inBounds h]
  exact operandAt_of_outside h'

theorem deferred_of_outside {a : Word} {s : State} (h : ¬ s.inBounds a) :
    (dataRead a s).andThen operandAt = .stopped (raiseFault .bounds a s) := by
  rw [dataRead_of_outside h, Access.stopped_andThen]

/-! ### Modes 2 and 3 -/

theorem resolve_autoInc {r : Reg} (hr : r ≠ pcReg) (s : State) : resolve ⟨.autoInc, r⟩ s = resolveAutoInc r s := if_neg hr

theorem resolve_autoIncDeferred {r : Reg} (hr : r ≠ pcReg) (s : State) :
    resolve ⟨.autoIncDeferred, r⟩ s = resolveAutoIncDeferred r s := if_neg hr

theorem resolve_immediate (s : State) : resolve ⟨.autoInc, pcReg⟩ s = resolveImmediate s := rfl

theorem resolve_absolute (s : State) : resolve ⟨.autoIncDeferred, pcReg⟩ s = (fetchWord s).andThen operandAt := rfl

/-- Settles O27: the first read is made in the state before, and the register's step changes neither memory nor its size, so the
second is made of the same memory. -/
theorem autoincrementModes : Obligations.AutoincrementModes := by
  intro s r hr
  rw [resolve_autoInc hr, resolve_autoIncDeferred hr, resolveAutoInc, resolveAutoIncDeferred]
  refine ⟨fun h => ?read, fun h => ?outside, fun h h' => ?deferred, fun h h' => ?target, fun h => ?pointer⟩
  case read => rw [operandAt_of_inBounds h]; rfl
  case outside => rw [operandAt_of_outside h]; rfl
  case deferred => rw [dataRead_of_inBounds h]; exact operandAt_of_inBounds h'
  case target => rw [dataRead_of_inBounds h]; exact operandAt_of_outside h'
  case pointer => rw [dataRead_of_outside h]; rfl

/-- Settles O28: the extension word is fetched; an absolute operand's own access follows, of the same memory. -/
theorem immediateAndAbsoluteModes : Obligations.ImmediateAndAbsoluteModes := by
  intro s
  rw [resolve_immediate, resolve_absolute, resolveImmediate]
  refine ⟨fun h => ?immediate, fun h h' => ?absolute, fun h h' => ?target, fun h => ?outside⟩
  case immediate => rw [fetchWord_of_inBounds h]; rfl
  case absolute => rw [fetchWord_of_inBounds h]; exact operandAt_of_inBounds h'
  case target => rw [fetchWord_of_inBounds h]; exact operandAt_of_outside h'
  case outside => rw [fetchWord_of_outside h]; exact ⟨rfl, rfl⟩

/-! ### Modes 4 and 5 -/

theorem resolve_autoDec (r : Reg) (s : State) :
    resolve ⟨.autoDec, r⟩ s = operandAt (s.reg r - wordStep) (stepBack r s) := by
  show operandAt ((stepBack r s).reg r) (stepBack r s) = _
  rw [stepBack, State.setReg_reg_same]

theorem resolve_autoDecDeferred (r : Reg) (s : State) :
    resolve ⟨.autoDecDeferred, r⟩ s = (dataRead (s.reg r - wordStep) (stepBack r s)).andThen operandAt := by
  show (dataRead ((stepBack r s).reg r) (stepBack r s)).andThen operandAt = _
  rw [stepBack, State.setReg_reg_same]

/-- Settles O29: every read is made in the state in which the register has stepped back, whose memory is the one before. -/
theorem autodecrementModes : Obligations.AutodecrementModes := by
  intro s r
  rw [resolve_autoDec, resolve_autoDecDeferred]
  exact ⟨fun h => operandAt_of_inBounds h, fun h h' => deferred_of_inBounds h h', fun h h' => deferred_of_target_outside h h',
    fun h => ⟨operandAt_of_outside h, deferred_of_outside h⟩⟩

/-! ### Modes 6 and 7 -/

/-- After the index word's fetch the register an index mode adds holds the index base. -/
theorem reg_fetched (s : State) (r : Reg) : ((countFetch s).setPc (s.pc + wordStep)).reg r = s.indexBase r := by
  rw [State.reg_setPc, countFetch_reg, State.indexBase]

theorem resolve_index_of_inBounds {s : State} (r : Reg) (h : s.inBounds s.pc) :
    resolve ⟨.index, r⟩ s =
      operandAt (s.wordAt s.pc + s.indexBase r) ((countFetch s).setPc (s.pc + wordStep)) := by
  show (fetchWord s).andThen (fun x t => operandAt (x + t.reg r) t) = _
  rw [fetchWord_of_inBounds h, Access.ok_andThen, reg_fetched]

theorem resolve_indexDeferred_of_inBounds {s : State} (r : Reg) (h : s.inBounds s.pc) :
    resolve ⟨.indexDeferred, r⟩ s =
      (dataRead (s.wordAt s.pc + s.indexBase r) ((countFetch s).setPc (s.pc + wordStep))).andThen operandAt := by
  show (fetchWord s).andThen (fun x t => (dataRead (x + t.reg r) t).andThen operandAt) = _
  rw [fetchWord_of_inBounds h, Access.ok_andThen, reg_fetched]

theorem resolve_index_of_outside {s : State} (r : Reg) (h : ¬ s.inBounds s.pc) :
    resolve ⟨.index, r⟩ s = .stopped (raiseFault .bounds s.pc s) := by
  show (fetchWord s).andThen (fun x t => operandAt (x + t.reg r) t) = _
  rw [fetchWord_of_outside h, Access.stopped_andThen]

theorem resolve_indexDeferred_of_outside {s : State} (r : Reg) (h : ¬ s.inBounds s.pc) :
    resolve ⟨.indexDeferred, r⟩ s = .stopped (raiseFault .bounds s.pc s) := by
  show (fetchWord s).andThen (fun x t => (dataRead (x + t.reg r) t).andThen operandAt) = _
  rw [fetchWord_of_outside h, Access.stopped_andThen]

theorem indexBase_of_ne {r : Reg} (hr : r ≠ pcReg) (s : State) : s.indexBase r = s.reg r := if_neg hr

/-- Modes 6 and 7 on any register, at the sum of the index word and the index base: each access after the index word's fetch is made
of the memory before it. -/
theorem indexedModes (s : State) (r : Reg) {a : Word} (ha : s.wordAt s.pc + s.indexBase r = a) :
    let f := (s.setPc (s.pc + 2#16)).setCounters { s.counters with fetch := s.counters.fetch + 1 }
    (s.inBounds s.pc → s.inBounds a → resolve ⟨.index, r⟩ s =
      .ok ⟨.memory a, s.wordAt a⟩ { f with counters.read := s.counters.read + 1 }) ∧
    (s.inBounds s.pc → ¬ s.inBounds a → resolve ⟨.index, r⟩ s = .stopped (f.setStatus (.fault .bounds a)) ∧
      resolve ⟨.indexDeferred, r⟩ s = .stopped (f.setStatus (.fault .bounds a))) ∧
    (s.inBounds s.pc → s.inBounds a → s.inBounds (s.wordAt a) → resolve ⟨.indexDeferred, r⟩ s =
      .ok ⟨.memory (s.wordAt a), s.wordAt (s.wordAt a)⟩ { f with counters.read := s.counters.read + 2 }) ∧
    (s.inBounds s.pc → s.inBounds a → ¬ s.inBounds (s.wordAt a) → resolve ⟨.indexDeferred, r⟩ s =
      .stopped ({ f with counters.read := s.counters.read + 1, status := .fault .bounds (s.wordAt a) })) ∧
    (¬ s.inBounds s.pc → resolve ⟨.index, r⟩ s = .stopped { s with status := .fault .bounds s.pc } ∧
      resolve ⟨.indexDeferred, r⟩ s = .stopped { s with status := .fault .bounds s.pc }) := by
  subst ha
  refine ⟨fun h h' => ?index, fun h h' => ⟨?outside, ?pointer⟩, fun h h' h'' => ?deferred, fun h h' h'' => ?target,
    fun h => ⟨resolve_index_of_outside r h, resolve_indexDeferred_of_outside r h⟩⟩
  case index => rw [resolve_index_of_inBounds r h]; exact operandAt_of_inBounds h'
  case outside => rw [resolve_index_of_inBounds r h]; exact operandAt_of_outside h'
  case pointer => rw [resolve_indexDeferred_of_inBounds r h]; exact deferred_of_outside h'
  case deferred => rw [resolve_indexDeferred_of_inBounds r h]; exact deferred_of_inBounds h' h''
  case target => rw [resolve_indexDeferred_of_inBounds r h]; exact deferred_of_target_outside h' h''

/-- Settles O30: the index base of a register other than R7 is the register, which the fetch has not moved. -/
theorem indexModes : Obligations.IndexModes := fun s r hr => indexedModes s r (by rw [indexBase_of_ne hr])

/-- Settles O31: the index base of R7 is the PC past the index word. -/
theorem relativeModes : Obligations.RelativeModes := fun s => indexedModes s pcReg rfl

/-! ### When an operand resolves -/

/-- No fault has stopped the access. -/
def Access.EndsOk {α : Type} (x : Access α) : Prop := ∃ v t, x = .ok v t

theorem Access.endsOk_ok {α : Type} (v : α) (t : State) : (Access.ok v t).EndsOk := ⟨v, t, rfl⟩

theorem Access.not_endsOk_stopped {α : Type} (t : State) : ¬ (Access.stopped t : Access α).EndsOk := nofun

theorem fetchWord_andThen_endsOk {α : Type} {s : State} {f : Word → State → Access α} :
    ((fetchWord s).andThen f).EndsOk ↔
      s.inBounds s.pc ∧ (f (s.wordAt s.pc) ((countFetch s).setPc (s.pc + wordStep))).EndsOk := by
  by_cases h : s.inBounds s.pc
  · rw [fetchWord_of_inBounds h, Access.ok_andThen, and_iff_right h]
  · rw [fetchWord_of_outside h]
    exact iff_of_false (Access.not_endsOk_stopped _) fun hand => h hand.1

theorem dataRead_andThen_endsOk {α : Type} {a : Word} {s : State} {f : Word → State → Access α} :
    ((dataRead a s).andThen f).EndsOk ↔ s.inBounds a ∧ (f (s.wordAt a) (countRead s)).EndsOk := by
  by_cases h : s.inBounds a
  · rw [dataRead_of_inBounds h, Access.ok_andThen, and_iff_right h]
  · rw [dataRead_of_outside h]
    exact iff_of_false (Access.not_endsOk_stopped _) fun hand => h hand.1

theorem operandAt_endsOk {ea : Word} {s : State} : (operandAt ea s).EndsOk ↔ s.inBounds ea :=
  dataRead_andThen_endsOk.trans (and_iff_left (Access.endsOk_ok _ _))

theorem deferred_endsOk {a : Word} {s : State} :
    ((dataRead a s).andThen operandAt).EndsOk ↔ s.inBounds a ∧ s.inBounds (s.wordAt a) :=
  dataRead_andThen_endsOk.trans (and_congr_right fun _ => operandAt_endsOk)

theorem resolveAutoInc_endsOk {r : Reg} {s : State} : (resolveAutoInc r s).EndsOk ↔ s.inBounds (s.reg r) := by
  by_cases h : s.inBounds (s.reg r)
  · rw [resolveAutoInc, operandAt_of_inBounds h]
    exact iff_of_true (Access.endsOk_ok _ _) h
  · rw [resolveAutoInc, operandAt_of_outside h]
    exact iff_of_false (Access.not_endsOk_stopped _) h

/-- Settles O32: each mode ends well exactly where each access it makes is in bounds, and none of them is made of another memory or
another size than those before the operand. -/
theorem operandResolvesExactlyWhenReadable : Obligations.OperandResolvesExactlyWhenReadable := by
  intro o s
  show (resolve o s).EndsOk ↔ o.readable s
  obtain ⟨m, r⟩ := o
  cases m with
  | register => exact iff_of_true (Access.endsOk_ok _ _) trivial
  | indirect => exact operandAt_endsOk
  | autoInc =>
    by_cases hr : r = pcReg
    · subst hr
      exact fetchWord_andThen_endsOk.trans (and_iff_left (Access.endsOk_ok _ _))
    · rw [resolve_autoInc hr]
      exact resolveAutoInc_endsOk
  | autoIncDeferred =>
    by_cases hr : r = pcReg
    · subst hr
      exact fetchWord_andThen_endsOk.trans (and_congr_right fun _ => operandAt_endsOk)
    · rw [resolve_autoIncDeferred hr]
      exact dataRead_andThen_endsOk.trans (and_congr_right fun _ => operandAt_endsOk)
  | autoDec => rw [resolve_autoDec]; exact operandAt_endsOk
  | autoDecDeferred => rw [resolve_autoDecDeferred]; exact deferred_endsOk
  | index =>
    refine fetchWord_andThen_endsOk.trans (and_congr_right fun _ => ?_)
    rw [reg_fetched]
    exact operandAt_endsOk
  | indexDeferred =>
    refine fetchWord_andThen_endsOk.trans (and_congr_right fun _ => ?_)
    rw [reg_fetched]
    exact deferred_endsOk

/-! ### What an operand counts -/

/-- An access that counts `n` fetches and `m` reads where it ends well, at most `n'` and `m'` where it is stopped, and nothing
else. -/
def Counts {α : Type} (n m n' m' : Nat) (s : State) : Access α → Prop
  | .ok _ t => t.counters = { s.counters with fetch := s.counters.fetch + n, read := s.counters.read + m }
  | .stopped t => ∃ k l, k ≤ n' ∧ l ≤ m' ∧
      t.counters = { s.counters with fetch := s.counters.fetch + k, read := s.counters.read + l }

/-- Counts add up; a sequence that is stopped has been in its first part or has its first part behind it. -/
theorem Counts.andThen {α β : Type} {n₁ m₁ n₁' m₁' n₂ m₂ n₂' m₂' : Nat} {s : State} {x : Access α}
    {f : α → State → Access β} (hx : Counts n₁ m₁ n₁' m₁' s x) (hf : ∀ v t, Counts n₂ m₂ n₂' m₂' t (f v t)) :
    Counts (n₁ + n₂) (m₁ + m₂) (max n₁' (n₁ + n₂')) (max m₁' (m₁ + m₂')) s (x.andThen f) := by
  cases x with
  | stopped t =>
    obtain ⟨k, l, hk, hl, ht⟩ := hx
    exact ⟨k, l, hk.trans (Nat.le_max_left ..), hl.trans (Nat.le_max_left ..), ht⟩
  | ok v t =>
    have ht : t.counters = { s.counters with fetch := s.counters.fetch + n₁, read := s.counters.read + m₁ } := hx
    have hfv := hf v t
    rw [Access.ok_andThen]
    cases hu : f v t with
    | ok w u =>
      rw [hu] at hfv
      show u.counters = _
      rw [show u.counters = _ from hfv, ht, Nat.add_assoc, Nat.add_assoc]
    | stopped u =>
      rw [hu] at hfv
      obtain ⟨k, l, hk, hl, hcounters⟩ := hfv
      refine ⟨n₁ + k, m₁ + l, (Nat.add_le_add_left hk n₁).trans (Nat.le_max_right ..),
        (Nat.add_le_add_left hl m₁).trans (Nat.le_max_right ..), ?_⟩
      rw [hcounters, ht, Nat.add_assoc, Nat.add_assoc]

theorem Counts.weaken {α : Type} {n m n₁ m₁ n₂ m₂ : Nat} {s : State} {x : Access α} (hx : Counts n m n₁ m₁ s x)
    (hn : n₁ ≤ n₂) (hm : m₁ ≤ m₂) : Counts n m n₂ m₂ s x := by
  cases x with
  | ok v t => exact hx
  | stopped t =>
    obtain ⟨k, l, hk, hl, ht⟩ := hx
    exact ⟨k, l, hk.trans hn, hl.trans hm, ht⟩

/-- An answer that is given after an access, with no further count, leaves its counts alone. -/
theorem Counts.answer {α β : Type} {n m n' m' : Nat} {s : State} {x : Access α} {g : α → State → β}
    {e : α → State → State} (hx : Counts n m n' m' s x) (he : ∀ v t, (e v t).counters = t.counters) :
    Counts n m n' m' s (x.andThen fun v t => .ok (g v t) (e v t)) := by
  cases x with
  | stopped t => exact hx
  | ok v t => exact (he v t).trans hx

theorem fetchWord_counts (s : State) : Counts 1 0 0 0 s (fetchWord s) := by
  rw [fetchWord_eq]
  split
  · rfl
  · exact ⟨0, 0, Nat.le_refl 0, Nat.le_refl 0, rfl⟩

theorem dataRead_counts (a : Word) {s t : State} (h : t.counters = s.counters) : Counts 0 1 0 0 s (dataRead a t) := by
  rw [dataRead_eq]
  split
  · show (countRead t).counters = _
    rw [countRead_counters, h]
    rfl
  · exact ⟨0, 0, Nat.le_refl 0, Nat.le_refl 0, h⟩

theorem operandAt_counts (ea : Word) {s t : State} (h : t.counters = s.counters) : Counts 0 1 0 0 s (operandAt ea t) :=
  (dataRead_counts ea h).answer fun _ _ => rfl

theorem deferred_counts (a : Word) {s t : State} (h : t.counters = s.counters) :
    Counts 0 2 0 1 s ((dataRead a t).andThen operandAt) :=
  (dataRead_counts a h).andThen fun _ _ => operandAt_counts _ rfl

/-- An operand counts what the table of totals says, and at most one fetch and one read where a fault stops it. -/
theorem resolve_counts (o : Operand) (s : State) : Counts o.extensionWords o.dataReads 1 1 s (resolve o s) := by
  obtain ⟨m, r⟩ := o
  cases m with
  | register => rfl
  | indirect => exact (operandAt_counts _ rfl).weaken (by decide) (by decide)
  | autoInc =>
    by_cases hr : r = pcReg
    · subst hr
      exact ((fetchWord_counts s).answer fun _ _ => rfl).weaken (by decide) (by decide)
    · have hext : Operand.extensionWords ⟨.autoInc, r⟩ = 0 := if_neg hr
      have hreads : Operand.dataReads ⟨.autoInc, r⟩ = 1 := if_neg hr
      rw [resolve_autoInc hr, hext, hreads]
      exact ((operandAt_counts _ rfl).answer fun _ _ => State.setReg_counters ..).weaken (by decide) (by decide)
  | autoIncDeferred =>
    by_cases hr : r = pcReg
    · subst hr
      exact ((fetchWord_counts s).andThen fun _ _ => operandAt_counts _ rfl).weaken (by decide) (by decide)
    · have hext : Operand.extensionWords ⟨.autoIncDeferred, r⟩ = 0 := if_neg hr
      have hreads : Operand.dataReads ⟨.autoIncDeferred, r⟩ = 2 := if_neg hr
      rw [resolve_autoIncDeferred hr, hext, hreads]
      exact ((dataRead_counts _ rfl).andThen fun _ _ => operandAt_counts _ (State.setReg_counters ..)).weaken (by decide)
        (by decide)
  | autoDec => rw [resolve_autoDec]; exact (operandAt_counts _ rfl).weaken (by decide) (by decide)
  | autoDecDeferred => rw [resolve_autoDecDeferred]; exact (deferred_counts _ rfl).weaken (by decide) (by decide)
  | index => exact ((fetchWord_counts s).andThen fun _ _ => operandAt_counts _ rfl).weaken (by decide) (by decide)
  | indexDeferred => exact ((fetchWord_counts s).andThen fun _ _ => deferred_counts _ rfl).weaken (by decide) (by decide)

/-- Settles O33: the exact part of what an operand counts. -/
theorem resolveCountsAsTheTableSays : Obligations.ResolveCountsAsTheTableSays := by
  intro o s t p hp
  have hcounts := resolve_counts o s
  rw [hp] at hcounts
  exact hcounts

end Sys2Proof.Machine

/-! PROOFS. What an instruction and a step can do, said once for all of them, and what follows for every step: its shape
(41_decoder_and_loop.md R102), the invariant, the counters (10_state.md R30, R31), the size of memory and the bounds fault
(60_exceptions.md R181, R184). -/

namespace Sys2Proof

theorem Operand.extensionWords_le (o : Operand) : o.extensionWords ≤ 1 := by
  obtain ⟨m, r⟩ := o
  cases m <;> revert r <;> decide

theorem Operand.dataReads_le (o : Operand) : o.dataReads ≤ 2 := by
  obtain ⟨m, r⟩ := o
  cases m <;> revert r <;> decide

end Sys2Proof

namespace Sys2Proof.Machine

/-! ### Both operands of a pair -/

theorem Behaves.weaken {α : Type} {free free' : Reg → Prop} {good : α → Prop} {s : State} {x : Access α}
    (hx : Behaves free good s x) (w : ∀ q, free q → free' q) : Behaves free' good s x := by
  cases x with
  | ok v t =>
    obtain ⟨⟨hkeeps, hstatus⟩, hgood⟩ := hx
    exact ⟨⟨hkeeps.weaken w, hstatus⟩, hgood⟩
  | stopped t =>
    obtain ⟨hkeeps, hfault⟩ := hx
    exact ⟨hkeeps.weaken w, hfault⟩

/-- What `resolve` keeps, a pair keeps but for the registers of either operand; the destination's address lies in memory. -/
theorem resolvePair_behaves (src dst : Operand) (s : State) :
    Behaves (fun q => src.changes q ∨ dst.changes q) (fun pq => Phrase.inside s.memWords pq.2) s (resolvePair src dst s) := by
  refine ((resolve_behaves src s).weaken fun _ => .inl).andThen fun p t ht _ => ?_
  refine ((resolve_behaves dst t).weaken fun _ => .inr).andThen fun q u _ hq => ?_
  rw [ht.1.memWords] at hq
  exact .ok hq

theorem resolvePair_counts (src dst : Operand) (s : State) :
    Counts (src.extensionWords + dst.extensionWords) (src.dataReads + dst.dataReads) 2 3 s (resolvePair src dst s) := by
  have hsrc := src.extensionWords_le
  have hreads := src.dataReads_le
  have hpair := (resolve_counts src s).andThen fun p t =>
    (resolve_counts dst t).answer (g := fun q _ => (p, q)) (e := fun _ u => u) fun _ _ => rfl
  exact hpair.weaken (by omega) (by omega)

/-! ### Where the operands lead -/

/-- `u` is the state in which an instruction that starts in `s` has taken its operands. -/
structure OperandsTaken (s u : State) : Prop where
  flags : u.flags = s.flags
  mem : u.mem = s.mem
  memWords : u.memWords = s.memWords
  status : u.status = s.status
  counters : ∃ n m, n ≤ 2 ∧ m ≤ 4 ∧
    u.counters = { s.counters with fetch := s.counters.fetch + n, read := s.counters.read + m }

/-- `t` is the state in which a fault at an operand has stopped an instruction that starts in `s`. -/
structure OperandsStopped (s t : State) : Prop where
  flags : t.flags = s.flags
  mem : t.mem = s.mem
  memWords : t.memWords = s.memWords
  status : ∃ a, t.status = .fault .bounds a ∧ ¬ s.inBounds a
  counters : ∃ n m, n ≤ 2 ∧ m ≤ 3 ∧
    t.counters = { s.counters with fetch := s.counters.fetch + n, read := s.counters.read + m }

/-- An access that takes an instruction's operands, of which `dst` gives the one written back. -/
def TakesOperands {α : Type} (dst : α → Phrase) (s : State) : Access α → Prop
  | .ok v u => OperandsTaken s u ∧ Phrase.inside u.memWords (dst v)
  | .stopped t => OperandsStopped s t

theorem takesOperands_of_behaves {α : Type} {free : Reg → Prop} {dst : α → Phrase} {n m n' m' : Nat} {s : State}
    {x : Access α} (hx : Behaves free (fun v => Phrase.inside s.memWords (dst v)) s x) (hcounts : Counts n m n' m' s x)
    (hn : n ≤ 2) (hm : m ≤ 4) (hn' : n' ≤ 2) (hm' : m' ≤ 3) : TakesOperands dst s x := by
  cases x with
  | ok v u =>
    obtain ⟨⟨hkeeps, hstatus⟩, hinside⟩ := hx
    rw [← hkeeps.memWords] at hinside
    exact ⟨⟨hkeeps.flags, hkeeps.mem, hkeeps.memWords, hstatus, n, m, hn, hm, hcounts⟩, hinside⟩
  | stopped t =>
    obtain ⟨hkeeps, hfault⟩ := hx
    obtain ⟨k, l, hk, hl, ht⟩ := hcounts
    exact ⟨hkeeps.flags, hkeeps.mem, hkeeps.memWords, hfault, k, l, hk.trans hn', hl.trans hm', ht⟩

theorem resolve_takesOperands (dst : Operand) (s : State) : TakesOperands id s (resolve dst s) :=
  takesOperands_of_behaves (resolve_behaves dst s) (resolve_counts dst s) (by have := dst.extensionWords_le; omega)
    (by have := dst.dataReads_le; omega) (by decide) (by decide)

theorem resolvePair_takesOperands (src dst : Operand) (s : State) : TakesOperands Prod.snd s (resolvePair src dst s) := by
  have hsrc := src.extensionWords_le
  have hdst := dst.extensionWords_le
  have hsrcReads := src.dataReads_le
  have hdstReads := dst.dataReads_le
  exact takesOperands_of_behaves (resolvePair_behaves src dst s) (resolvePair_counts src dst s) (by omega) (by omega) (by decide)
    (by decide)

/-! ### What an instruction can do -/

/-- The state after writeback through a phrase whose address lies in memory. -/
def Phrase.write (p : Phrase) (v : Word) (s : State) : State :=
  match p.place with
  | .register r => s.setReg r v
  | .memory ea => countWrite (s.setMem (s.mem.writeWord (wordIndex ea) v))

theorem update_eq_write {p : Phrase} {s : State} (v : Word) (h : p.inside s.memWords) : update p v s = .ok () (p.write v s) := by
  rw [update_of_inside v h]
  rfl

/-- N and Z are not both set (46_condition_codes.md R160). -/
def Flags.NotNegativeZero (f : Flags) : Prop := ¬ (f.n = true ∧ f.z = true)

/-- Flags whose N and Z are the condition-code unit's are never both set. -/
theorem Flags.notNegativeZero_of_eq {f : Flags} {res : Word} {v c : Bool} (h : f = ⟨signBit res, isZero res, v, c⟩) :
    f.NotNegativeZero := by
  obtain ⟨-, -, hboth⟩ := Flags.signAndZeroOf_of_eq h
  exact hboth

/-- What an instruction can do to the state it starts in, whichever instruction it is. -/
inductive Effect (s : State) : State → Prop where
  /-- an operand's fault ends it -/
  | stopped {t : State} (h : OperandsStopped s t) : Effect s t
  /-- MOV, ADD, SUB, ASL, ASR: the result is written back, then the flags are replaced -/
  | stored {u : State} {p : Phrase} {f : Flags} (v : Word) (h : OperandsTaken s u) (hp : p.inside u.memWords)
      (hf : f.NotNegativeZero) : Effect s ((p.write v u).setFlags f)
  /-- CMP: the flags are replaced -/
  | compared {u : State} {f : Flags} (h : OperandsTaken s u) (hf : f.NotNegativeZero) : Effect s (u.setFlags f)
  /-- BEQ, BNE, BR, SOB: a branch, SOB's register decremented before it -/
  | branched {u : State} (b : Bool) (d : Int) (h : OperandsTaken s u) : Effect s (branchWhen b d u)
  /-- HALT -/
  | halted : Effect s (s.setStatus .halted)

/-- Nothing is taken of a state. -/
theorem OperandsTaken.refl (s : State) : OperandsTaken s s :=
  ⟨rfl, rfl, rfl, rfl, 0, 0, by decide, by decide, rfl⟩

theorem OperandsTaken.setReg (s : State) (r : Reg) (v : Word) : OperandsTaken s (s.setReg r v) :=
  ⟨rfl, rfl, rfl, rfl, 0, 0, by decide, by decide, rfl⟩

/-- A handler that takes its operands, writes a result back and replaces the flags. -/
theorem Effect.of_store {α : Type} {dst : α → Phrase} {res : α → Word} {f : α → Flags} {s t : State} {x : Access α}
    (hx : TakesOperands dst s x) (hf : ∀ v, (f v).NotNegativeZero)
    (h : finish (x.andThen fun v u => writeResult (dst v) (res v) (f v) u) = .next t) : Effect s t := by
  cases x with
  | stopped t' =>
    cases h
    exact .stopped hx
  | ok v u =>
    obtain ⟨htaken, hinside⟩ := hx
    rw [Access.ok_andThen, writeResult, update_eq_write _ hinside] at h
    cases h
    exact .stored (res v) htaken hinside (hf v)

/-- A handler that takes its operands and replaces the flags. -/
theorem Effect.of_compare {α : Type} {dst : α → Phrase} {f : α → Flags} {s t : State} {x : Access α}
    (hx : TakesOperands dst s x) (hf : ∀ v, (f v).NotNegativeZero)
    (h : finish (x.andThen fun v u => .ok () (u.setFlags (f v))) = .next t) : Effect s t := by
  cases x with
  | stopped t' =>
    cases h
    exact .stopped hx
  | ok v u =>
    obtain ⟨htaken, -⟩ := hx
    cases h
    exact .compared htaken (hf v)

/-- Whatever an instruction does is one of these. -/
theorem exec_effect {i : Instr} {s t : State} (h : exec i s = .next t) : Effect s t := by
  cases i with
  | mov src dst => exact .of_store (resolvePair_takesOperands src dst s) (fun _ => Flags.notNegativeZero_of_eq rfl) h
  | cmp src dst => exact .of_compare (resolvePair_takesOperands src dst s) (fun _ => Flags.notNegativeZero_of_eq rfl) h
  | add src dst => exact .of_store (resolvePair_takesOperands src dst s) (fun _ => Flags.notNegativeZero_of_eq rfl) h
  | sub src dst => exact .of_store (resolvePair_takesOperands src dst s) (fun _ => Flags.notNegativeZero_of_eq rfl) h
  | asl dst => exact .of_store (resolve_takesOperands dst s) (fun _ => Flags.notNegativeZero_of_eq rfl) h
  | asr dst => exact .of_store (resolve_takesOperands dst s) (fun _ => Flags.notNegativeZero_of_eq rfl) h
  | sob r off => cases h; exact .branched _ _ (.setReg s r _)
  | br off => cases h; exact .branched _ _ (.refl s)
  | bne off => cases h; exact .branched _ _ (.refl s)
  | beq off => cases h; exact .branched _ _ (.refl s)
  | halt => cases h; exact .halted

/-- Every instruction answers a next state. -/
theorem exec_eq_next (i : Instr) (s : State) : ∃ t, exec i s = .next t := by
  have hfinish (x : Access Unit) : ∃ t, finish x = .next t := by
    cases x with
    | ok v t => exact ⟨t, rfl⟩
    | stopped t => exact ⟨t, rfl⟩
  cases i with
  | mov src dst => exact hfinish _
  | cmp src dst => exact hfinish _
  | add src dst => exact hfinish _
  | sub src dst => exact hfinish _
  | asl dst => exact hfinish _
  | asr dst => exact hfinish _
  | sob r off => exact ⟨_, rfl⟩
  | br off => exact ⟨_, rfl⟩
  | bne off => exact ⟨_, rfl⟩
  | beq off => exact ⟨_, rfl⟩
  | halt => exact ⟨_, rfl⟩

/-! ### What each effect leaves alone -/

@[simp] theorem Phrase.write_memWords (p : Phrase) (v : Word) (s : State) : (p.write v s).memWords = s.memWords := by
  obtain ⟨place, value⟩ := p
  cases place <;> rfl

@[simp] theorem Phrase.write_status (p : Phrase) (v : Word) (s : State) : (p.write v s).status = s.status := by
  obtain ⟨place, value⟩ := p
  cases place <;> rfl

theorem Phrase.write_counters (p : Phrase) (v : Word) (s : State) :
    ∃ w, w ≤ 1 ∧ (p.write v s).counters = { s.counters with write := s.counters.write + w } := by
  obtain ⟨place, value⟩ := p
  cases place with
  | register r => exact ⟨0, by decide, rfl⟩
  | memory ea => exact ⟨1, by decide, rfl⟩

/-- Memory is as it was, or one of its words has been stored. -/
theorem Phrase.write_mem {p : Phrase} {s : State} (v : Word) (h : p.inside s.memWords) :
    (p.write v s).mem = s.mem ∨ ∃ k, k < s.memWords ∧ (p.write v s).mem = s.mem.writeWord k v := by
  obtain ⟨place, value⟩ := p
  cases place with
  | register r => exact .inl rfl
  | memory ea => exact .inr ⟨_, h ea rfl, rfl⟩

section
variable {s t : State} (h : Effect s t)
include h

theorem Effect.memWords : t.memWords = s.memWords := by
  cases h with
  | stopped h => exact h.memWords
  | stored v h => rw [State.setFlags_memWords, Phrase.write_memWords, h.memWords]
  | compared h => exact h.memWords
  | branched b d h => rw [branchWhen_memWords, h.memWords]
  | halted => rfl

theorem Effect.mem : t.mem = s.mem ∨ ∃ k v, k < s.memWords ∧ t.mem = s.mem.writeWord k v := by
  cases h with
  | stopped h => exact .inl h.mem
  | stored v h hp =>
    obtain hsame | ⟨k, hk, hstored⟩ := Phrase.write_mem v hp
    · exact .inl (hsame.trans h.mem)
    · rw [h.memWords] at hk
      rw [h.mem] at hstored
      exact .inr ⟨k, v, hk, hstored⟩
  | compared h => exact .inl h.mem
  | branched b d h => exact .inl ((branchWhen_mem ..).trans h.mem)
  | halted => exact .inl rfl

theorem Effect.flags : t.flags = s.flags ∨ t.flags.NotNegativeZero := by
  cases h with
  | stopped h => exact .inl h.flags
  | stored v h hp hf => exact .inr hf
  | compared h hf => exact .inr hf
  | branched b d h => exact .inl ((branchWhen_flags ..).trans h.flags)
  | halted => exact .inl rfl

/-- An instruction stops at an operand, with nothing counted but fetches and reads; or it halts or keeps the status, and has
fetched at most two words of its own, read at most four, stored at most one and been at most one branch, taken or not. -/
theorem Effect.counters : ∃ n m w b k, n ≤ 2 ∧
    t.counters = { s.counters with
      fetch := s.counters.fetch + n, read := s.counters.read + m, write := s.counters.write + w,
      branch := s.counters.branch + b, taken := s.counters.taken + k } ∧
    ((OperandsStopped s t ∧ m ≤ 3 ∧ w = 0 ∧ b = 0 ∧ k = 0) ∨
      ((t.status = .halted ∨ t.status = s.status) ∧ m ≤ 4 ∧ w ≤ 1 ∧ b ≤ 1 ∧ k ≤ b)) := by
  cases h with
  | stopped h =>
    obtain ⟨n, m, hn, hm, ht⟩ := h.counters
    exact ⟨n, m, 0, 0, 0, hn, ht, .inl ⟨h, hm, rfl, rfl, rfl⟩⟩
  | @stored u p f v h =>
    obtain ⟨n, m, hn, hm, hu⟩ := h.counters
    obtain ⟨w, hw, hwrite⟩ := p.write_counters v u
    rw [hu] at hwrite
    exact ⟨n, m, w, 0, 0, hn, hwrite, .inr ⟨.inr ((p.write_status v u).trans h.status), hm, hw, by decide, by decide⟩⟩
  | compared h =>
    obtain ⟨n, m, hn, hm, hu⟩ := h.counters
    exact ⟨n, m, 0, 0, 0, hn, hu, .inr ⟨.inr h.status, hm, by decide, by decide, by decide⟩⟩
  | @branched u b d h =>
    obtain ⟨n, m, hn, hm, hu⟩ := h.counters
    have hbranch := branchWhen_counters b d u
    rw [hu] at hbranch
    exact ⟨n, m, 0, 1, if b then 1 else 0, hn, hbranch,
      .inr ⟨.inr ((branchWhen_status b d u).trans h.status), hm, by decide, by decide, by split <;> decide⟩⟩
  | halted => exact ⟨0, 0, 0, 0, 0, by decide, rfl, .inr ⟨.inl rfl, by decide, by decide, by decide, by decide⟩⟩

/-- An instruction stops at an operand, halts, or keeps the status. -/
theorem Effect.status : OperandsStopped s t ∨ t.status = .halted ∨ t.status = s.status := by
  obtain ⟨n, m, w, b, k, -, -, ⟨hstop, -⟩ | ⟨hstatus, -⟩⟩ := h.counters
  · exact .inl hstop
  · exact .inr hstatus

end

/-- Settles O43: of all an instruction can do, a fault is left only where an operand stopped it. -/
theorem operandFaultLeavesTheRest : Obligations.OperandFaultLeavesTheRest := by
  intro i s t h hfault hs
  obtain hstop | hhalt | hkept := (exec_effect h).status
  · obtain ⟨n, m, -, -, hcounters⟩ := hstop.counters
    rw [hcounters]
    exact ⟨hstop.status, hstop.mem, hstop.flags, rfl, rfl, rfl, rfl⟩
  · rw [hhalt] at hfault
    cases hfault
  · rw [hkept, hs] at hfault
    cases hfault

/-! ### What a step can do -/

/-- Every step of a running machine is one of three: the fetch faults, the fetched word is invalid, or it is run and completed. -/
theorem step_cases {s t : State} (h : step s = .next t) :
    (¬ s.inBounds s.pc ∧ t = raiseFault .bounds s.pc s) ∨
    (decodeWord (s.wordAt s.pc) = none ∧
      t = raiseFault .decode (s.wordAt s.pc) ((countFetch s).setPc (s.pc + wordStep))) ∨
    (∃ u, Effect ((countFetch s).setPc (s.pc + wordStep)) u ∧ t = completeStep u) := by
  have hrun := running_of_step_eq_next h
  by_cases hin : s.inBounds s.pc
  · rw [step_of_pc_inBounds hrun hin] at h
    cases hi : decodeWord (s.wordAt s.pc) with
    | none =>
      rw [runFetched_of_decodeWord_none _ hi] at h
      cases h
      exact .inr (.inl ⟨rfl, rfl⟩)
    | some i =>
      rw [runFetched_of_decodeWord_some _ hi] at h
      obtain ⟨u, hu, rfl⟩ := retire_eq_next.mp h
      exact .inr (.inr ⟨u, exec_effect hu, rfl⟩)
  · rw [step_of_pc_outside hrun hin] at h
    cases h
    exact .inl ⟨hin, rfl⟩

theorem completeStep_eq (s : State) :
    completeStep s =
      if s.status.isFault then s else s.setCounters { s.counters with instr := s.counters.instr + 1 } := rfl

theorem completeStep_counters (s : State) :
    (completeStep s).counters = { s.counters with instr := s.counters.instr + (if s.status.isFault then 0 else 1) } := by
  rw [completeStep_eq]
  split <;> rfl

/-- Settles O7: the state after the fetch is one the instruction answers a next state from, and completing it counts it. -/
theorem stepRunsTheDecodedInstruction : Obligations.StepRunsTheDecodedInstruction := by
  intro s i hrun hin hi
  obtain ⟨t, ht⟩ := exec_eq_next i ((countFetch s).setPc (s.pc + wordStep))
  refine ⟨(countFetch s).setPc (s.pc + wordStep), t, ⟨State.setPc_pc .., fun q hq => State.setPc_reg_of_ne _ _ hq, rfl, hrun,
    rfl, rfl, rfl⟩, ht, ?_⟩
  rw [step_of_pc_inBounds hrun hin, runFetched_of_decodeWord_some _ hi, ht, retire_next, completeStep_eq]

/-- Settles O9: the fetch is the first thing a step does, and its fault is the step's. -/
theorem pcOutsideMemoryRaisesBoundsFault : Obligations.PcOutsideMemoryRaisesBoundsFault := fun _ => step_of_pc_outside

theorem runFetched_eq_next (w : Word) (s : State) : ∃ t, runFetched w s = .next t := by
  cases hi : decodeWord w with
  | none => exact ⟨_, runFetched_of_decodeWord_none s hi⟩
  | some i =>
    obtain ⟨t, ht⟩ := exec_eq_next i s
    exact ⟨completeStep t, by rw [runFetched_of_decodeWord_some s hi, ht, retire_next]⟩

/-- Settles O11: only a running machine has a next state, and a running one has it whether its fetch faults or the fetched word is
run, since every instruction answers one. -/
theorem machineStepsExactlyWhileRunning : Obligations.MachineStepsExactlyWhileRunning := by
  intro s
  refine ⟨⟨fun ⟨t, h⟩ => running_of_step_eq_next h, fun hrun => ?_⟩, fun h => ?_, fun kind info h => ?_⟩
  · by_cases hin : s.inBounds s.pc
    · rw [step_of_pc_inBounds hrun hin]
      exact runFetched_eq_next _ _
    · exact ⟨_, step_of_pc_outside hrun hin⟩
  · simp only [step, h]
  · simp only [step, h]

/-! ### What every step keeps -/

section
variable {s t : State} (h : step s = .next t)
include h

theorem step_mem : t.mem = s.mem ∨ ∃ k v, k < s.memWords ∧ t.mem = s.mem.writeWord k v := by
  obtain ⟨-, rfl⟩ | ⟨-, rfl⟩ | ⟨u, hu, rfl⟩ := step_cases h
  · exact .inl rfl
  · exact .inl rfl
  · rw [completeStep_mem]
    exact hu.mem

theorem step_flags : t.flags = s.flags ∨ t.flags.NotNegativeZero := by
  obtain ⟨-, rfl⟩ | ⟨-, rfl⟩ | ⟨u, hu, rfl⟩ := step_cases h
  · exact .inl rfl
  · exact .inl rfl
  · rw [completeStep_flags]
    exact hu.flags

theorem step_memWords : t.memWords = s.memWords := by
  obtain ⟨-, rfl⟩ | ⟨-, rfl⟩ | ⟨u, hu, rfl⟩ := step_cases h
  · rfl
  · rfl
  · rw [completeStep_memWords]
    exact hu.memWords

end

/-- Settles O16: neither a fault nor what an instruction does writes the size. -/
theorem stepKeepsTheMemorySize : Obligations.StepKeepsTheMemorySize := fun _ _ => step_memWords

/-- Settles O15: the fetch and the instruction add to the counters, and completing the step counts it unless a fault ended it. -/
theorem countersNeverDecrease : Obligations.CountersNeverDecrease := by
  intro s t h
  obtain ⟨-, rfl⟩ | ⟨-, rfl⟩ | ⟨u, hu, rfl⟩ := step_cases h
  · exact ⟨Nat.le_refl _, Nat.le_refl _, Nat.le_refl _, Nat.le_refl _, Nat.le_refl _, rfl⟩
  · exact ⟨Nat.le_succ _, Nat.le_refl _, Nat.le_refl _, Nat.le_refl _, Nat.le_refl _, rfl⟩
  · obtain ⟨n, m, w, b, k, -, hcounters, -⟩ := hu.counters
    rw [completeStep_counters, completeStep_status, hcounters]
    exact ⟨Nat.le_add_right_of_le (Nat.le_succ _), Nat.le_add_right .., Nat.le_add_right .., Nat.le_add_right ..,
      Nat.le_add_right .., rfl⟩

/-- Settles O10: a fetch that faults names the PC; past the fetch only an operand records a bounds fault, of an address outside,
and nothing is stored or counted as an instruction after it. -/
theorem recordedBoundsFaultIsOutsideMemory : Obligations.RecordedBoundsFaultIsOutsideMemory := by
  intro s t a h hfault
  have hrun := running_of_step_eq_next h
  obtain ⟨hout, rfl⟩ | ⟨-, rfl⟩ | ⟨u, hu, rfl⟩ := step_cases h
  · cases hfault
    exact ⟨hout, rfl, rfl, rfl, rfl⟩
  · cases hfault
  · rw [completeStep_status] at hfault
    obtain hstop | hhalt | hkept := hu.status
    · obtain ⟨b, hb, hout⟩ := hstop.status
      cases hfault.symm.trans hb
      obtain ⟨n, m, -, -, hcounters⟩ := hstop.counters
      rw [completeStep_of_fault (by rw [hb]; rfl), hcounters, hstop.mem, hstop.flags]
      exact ⟨hout, rfl, rfl, rfl, rfl⟩
    · cases hfault.symm.trans hhalt
    · cases hfault.symm.trans (hkept.trans hrun)

/-- Every word index of a 16-bit address is below 2^15. -/
theorem wordIndex_lt (a : Word) : wordIndex a < 32768 := by
  have ha := a.isLt
  rw [wordIndex, BitVec.toNat_ushiftRight, Nat.shiftRight_eq_div_pow]
  omega

/-- Settles O19: with all 32768 words in memory no address is outside. -/
theorem fullMemoryRaisesNoBoundsFault : Obligations.FullMemoryRaisesNoBoundsFault := by
  intro s t a hsize h hfault
  obtain ⟨hout, -⟩ := recordedBoundsFaultIsOutsideMemory s t a h hfault
  exact hout (State.inBounds_iff.mpr (hsize ▸ wordIndex_lt a))

/-! ### The invariant -/

/-- A recorded fault is true of the machine: a decode fault of the word it names, a bounds fault of an address outside. -/
theorem step_faultIsTrue {s t : State} (h : step s = .next t) : t.faultIsTrue := by
  unfold State.faultIsTrue
  split
  case h_1 w hdecode =>
    obtain ⟨-, -, hnone⟩ := invalidWordRaisesDecodeFault.2 s t w h hdecode
    exact hnone
  case h_2 a hbounds =>
    obtain ⟨hout, -⟩ := recordedBoundsFaultIsOutsideMemory s t a h hbounds
    rwa [State.inBounds_congr (step_memWords h)]
  case h_3 => trivial
  case h_4 => trivial

/-- The bounds of the counters are kept: a step that a fault ends adds at most three fetches and three reads to a running
machine's, any other step counts one instruction and at most what one instruction is allowed. -/
theorem step_countersFit {s t : State} (hs : s.countersFit) (h : step s = .next t) : t.countersFit := by
  have hrun := running_of_step_eq_next h
  unfold State.countersFit at hs ⊢
  simp only [hrun, isFault_running, Bool.false_eq_true, if_false] at hs
  obtain ⟨-, rfl⟩ | ⟨-, rfl⟩ | ⟨u, hu, rfl⟩ := step_cases h
  · simp only [raiseFault_counters, raiseFault_status, isFault_fault, if_true]
    omega
  · simp only [raiseFault_counters, State.setPc_counters, countFetch_counters, raiseFault_status, isFault_fault, if_true]
    omega
  · obtain ⟨n, m, w, b, k, hn, hcounters, ⟨hstop, hbounds⟩ | ⟨hstatus, hbounds⟩⟩ := hu.counters
    · obtain ⟨a, ha, -⟩ := hstop.status
      simp only [completeStep_counters, completeStep_status, hcounters, ha, isFault_fault, State.setPc_counters,
        countFetch_counters, if_true]
      omega
    · have hends : u.status.isFault = false := by
        obtain hhalt | hkept := hstatus
        · rw [hhalt, isFault_halted]
        · rw [hkept]
          exact congrArg Status.isFault hrun
      simp only [completeStep_counters, completeStep_status, hcounters, hends, State.setPc_counters, countFetch_counters,
        Bool.false_eq_true, if_false]
      omega

/-- Settles O12: memory is as it was or has had one word inside it stored, the flags are as they were or a category's, and a
recorded fault and the counters are those of the step's three shapes. -/
theorem stepKeepsTheInvariant : Obligations.StepKeepsTheInvariant := by
  intro s t hs h
  have hsize := step_memWords h
  refine ⟨?canonical, ?inside, ?size, ?flags, step_faultIsTrue h, step_countersFit hs.countersFit h⟩
  case canonical =>
    obtain hmem | ⟨k, v, -, hmem⟩ := step_mem h
    · rw [hmem]
      exact hs.memCanonical
    · rw [hmem]
      exact Memory.wf_writeWord k v hs.memCanonical
  case inside =>
    unfold State.memInside
    rw [hsize]
    obtain hmem | ⟨k, v, hk, hmem⟩ := step_mem h
    · rw [hmem]
      exact hs.memInside
    · rw [hmem]
      exact Memory.inside_writeWord v hk hs.memInside
  case size =>
    unfold State.sizeLegal
    rw [hsize]
    exact hs.sizeLegal
  case flags =>
    obtain hflags | hflags := step_flags h
    · rw [hflags]
      exact hs.notNegativeZero
    · exact hflags

end Sys2Proof.Machine

/-! PROOFS. Memory as the host and the fetch see it: addresses, the canonical form, a store before a fetch (20_memory.md sections 1
and 4), and the state a reset or a launch leaves (70_reset_and_hazards.md). -/

namespace Sys2Proof.Machine

/-! ### Addresses -/

/-- Bit 0 of an address is ignored. -/
theorem wordIndex_ofNat {k j : Nat} (hk : k < 32768) (hj : j < 2) : wordIndex (BitVec.ofNat 16 (2 * k + j)) = k := by
  rw [wordIndex, BitVec.toNat_ushiftRight, BitVec.toNat_ofNat, Nat.shiftRight_eq_div_pow]
  omega

/-- Settles O23: both addresses have word index k, which is all a bounds check or a read looks at. -/
theorem oddAddressNamesTheSameWord : Obligations.OddAddressNamesTheSameWord := by
  intro s k hk
  have heven : wordIndex (BitVec.ofNat 16 (2 * k)) = k := wordIndex_ofNat hk (by decide : 0 < 2)
  have hodd : wordIndex (BitVec.ofNat 16 (2 * k + 1)) = k := wordIndex_ofNat hk (by decide)
  refine ⟨heven, hodd, ?_, ?_, ?_⟩
  · rw [State.inBounds_iff, heven]
  · rw [State.inBounds_iff, hodd]
  · rw [State.wordAt, State.wordAt, heven, hodd]

/-! ### The canonical form -/

theorem Memory.readByte_of_below {m : Memory} {a : Nat} (h : ∀ c ∈ m, a < c.1) : m.readByte a = Config.unloadedByte := by
  induction m with
  | nil => rfl
  | cons c m ih =>
    rw [Memory.readByte, if_neg (Nat.ne_of_gt (h c (by simp)))]
    exact ih fun d hd => h d (by simp [hd])

theorem Memory.readByte_head (c : Host.Cell) (m : Memory) : Memory.readByte (c :: m) c.1 = c.2 := if_pos rfl

/-- A canonical memory's first cell stands at the first address that does not read as unlisted. -/
theorem Memory.head_le_of_read_alike {c d : Host.Cell} {m n : Memory} (hm : Memory.wf (c :: m)) (hn : Memory.wf (d :: n))
    (h : ∀ k, Memory.readByte (c :: m) k = Memory.readByte (d :: n) k) : d.1 ≤ c.1 := by
  by_contra hlt
  have hbelow : ∀ e ∈ d :: n, c.1 < e.1 := by
    intro e he
    obtain rfl | he := List.mem_cons.mp he
    · omega
    · exact (Nat.not_le.mp hlt).trans (List.rel_of_pairwise_cons hn.1 he)
  have hc : c.2 = Config.unloadedByte := by
    rw [← Memory.readByte_head c m, h, Memory.readByte_of_below hbelow]
  exact hm.2 c (by simp) hc

theorem Memory.wf_tail {c : Host.Cell} {m : Memory} (h : Memory.wf (c :: m)) : m.wf :=
  ⟨h.1.of_cons, fun d hd => h.2 d (by simp [hd])⟩

/-- A canonical memory that lists a cell does not read as one that lists none. -/
theorem Memory.not_read_alike_nil {c : Host.Cell} {m : Memory} (hm : Memory.wf (c :: m)) :
    ¬ ∀ k, Memory.readByte (c :: m) k = Memory.readByte [] k := fun h =>
  hm.2 c (by simp) ((Memory.readByte_head c m).symm.trans (h c.1))

/-- Settles O24: the first cells stand at one address, the lowest that does not read as unlisted, and hold what is read there; the
rest reads alike too, for it lists nothing up to that address. -/
theorem canonicalMemoriesThatReadAlikeAreEqual : Obligations.CanonicalMemoriesThatReadAlikeAreEqual := by
  intro m
  induction m with
  | nil =>
    intro n hm hn h
    cases n with
    | nil => rfl
    | cons d n => exact absurd (fun k => (h k).symm) (Memory.not_read_alike_nil hn)
  | cons c m ih =>
    intro n hm hn h
    cases n with
    | nil => exact absurd h (Memory.not_read_alike_nil hm)
    | cons d n =>
      have haddr : d.1 = c.1 :=
        Nat.le_antisymm (Memory.head_le_of_read_alike hm hn h) (Memory.head_le_of_read_alike hn hm fun k => (h k).symm)
      have hcell : c = d := by
        refine Prod.ext haddr.symm ?_
        rw [← Memory.readByte_head c m, h, ← haddr, Memory.readByte_head]
      subst hcell
      have htail : m = n := by
        refine ih n (Memory.wf_tail hm) (Memory.wf_tail hn) fun k => ?_
        by_cases hk : c.1 = k
        · subst hk
          rw [Memory.readByte_of_below fun e he => List.rel_of_pairwise_cons hm.1 he,
            Memory.readByte_of_below fun e he => List.rel_of_pairwise_cons hn.1 he]
        · have hrest := h k
          rwa [Memory.readByte, if_neg hk, Memory.readByte, if_neg hk] at hrest
      rw [htail]

/-! ### A store and the fetch after it -/

/-- A data write that ended well was in bounds, and stored. -/
theorem dataWrite_eq_ok {a v : Word} {s t : State} (h : dataWrite a v s = .ok () t) :
    s.inBounds a ∧ t = countWrite (s.setMem (s.mem.writeWord (wordIndex a) v)) := by
  rw [dataWrite_eq] at h
  split at h
  case isTrue hin =>
    cases h
    exact ⟨hin, rfl⟩
  case isFalse => cases h

/-- Settles O25: the store does not move the PC, which is in bounds because the address is, and the word it names is the one
stored. -/
theorem storeIsSeenByTheNextFetch : Obligations.StoreIsSeenByTheNextFetch := by
  intro s t a v h hpc
  obtain ⟨hin, rfl⟩ := dataWrite_eq_ok h
  rw [State.inBounds_iff, ← hpc] at hin
  have hfetch := fetchWord_of_inBounds (s := countWrite (s.setMem (s.mem.writeWord (wordIndex a) v)))
    (State.inBounds_iff.mpr hin)
  have hword : (countWrite (s.setMem (s.mem.writeWord (wordIndex a) v))).wordAt s.pc = v := by
    rw [countWrite_wordAt, State.setMem_wordAt, hpc, Memory.readWord_writeWord_same]
  exact ⟨_, hfetch.trans (congrArg (Access.ok · _) hword)⟩

/-! ### Reset -/

theorem Memory.readWord_nil (k : Nat) : Memory.readWord [] k = 0#16 := by
  rw [Memory.readWord, Memory.readByte_nil, Memory.readByte_nil]
  decide

theorem resetWith_reg (n : Nat) (q : Reg) : (State.resetWith n).reg q = 0#16 := by
  have hzero : ∀ q : Reg, ((Vector.replicate 8 Config.resetRegister).set 7 Config.resetPc)[q] = 0#16 := by decide
  exact hzero q

/-- Settles O57: the fields as reset sets them, each register by its number, and a memory that lists nothing. -/
theorem resetLeavesTheTableOfValues : Obligations.ResetLeavesTheTableOfValues := fun n =>
  ⟨rfl, rfl, rfl, resetWith_reg n, rfl, fun a => Memory.readWord_nil (wordIndex a), rfl⟩

/-- A machine with a legal size, canonical memory inside it and all else as reset leaves it meets the invariant. -/
theorem inv_resetWith_setMem {n : Nat} {m : Memory} (hlow : 1 ≤ n) (hhigh : n ≤ 32768) (hm : m.wf)
    (hin : ∀ c ∈ m, c.1 < 2 * n) :
    ((State.resetWith n).setMem m).Inv where
  memCanonical := hm
  memInside := hin
  sizeLegal := ⟨hlow, hhigh⟩
  notNegativeZero := by rintro ⟨hn, -⟩; cases hn
  faultIsTrue := trivial
  countersFit := ⟨Nat.le_refl 0, Nat.le_refl 0, Nat.le_refl 0, Nat.le_refl 0, Nat.zero_le _, Nat.zero_le _⟩

/-- Settles O13: reset lists no memory and counts nothing. -/
theorem resetMeetsTheInvariant : Obligations.ResetMeetsTheInvariant := by
  have hreset : ∀ n, 1 ≤ n → n ≤ 32768 → (State.resetWith n).Inv := fun n hlow hhigh =>
    inv_resetWith_setMem (m := []) hlow hhigh Memory.wf_nil (by simp)
  exact ⟨hreset, hreset 32768 (by decide) (by decide)⟩

/-! ### Placing an image -/

theorem Memory.wf_placeImage {m : Memory} (k : Nat) (image : List Word) (h : m.wf) : (m.placeImage k image).wf := by
  induction image generalizing m k with
  | nil => exact h
  | cons w ws ih => exact ih (k + 1) (Memory.wf_writeWord k w h)

theorem Memory.inside_placeImage {m : Memory} {k n : Nat} {image : List Word} (hk : k + image.length ≤ n)
    (h : ∀ c ∈ m, c.1 < 2 * n) : ∀ c ∈ m.placeImage k image, c.1 < 2 * n := by
  induction image generalizing m k with
  | nil => exact h
  | cons w ws ih =>
    rw [List.length_cons] at hk
    exact ih (by omega) (Memory.inside_writeWord w (by omega) h)

/-- What placing an image leaves in each word: the image's words from `k` on, every other word as before. -/
theorem Memory.readWord_placeImage (m : Memory) (k : Nat) (image : List Word) (j : Nat) :
    (m.placeImage k image).readWord j = if j < k then m.readWord j else (image[j - k]?).getD (m.readWord j) := by
  induction image generalizing m k with
  | nil => simp [Memory.placeImage]
  | cons w ws ih =>
    rw [Memory.placeImage, ih]
    obtain hlt | rfl | hgt := Nat.lt_trichotomy j k
    · rw [if_pos hlt, if_pos (Nat.lt_succ_of_lt hlt), Memory.readWord_writeWord_of_ne m w (Nat.ne_of_lt hlt)]
    · rw [if_neg (Nat.lt_irrefl j), if_pos (Nat.lt_succ_self j), Memory.readWord_writeWord_same, Nat.sub_self]
      rfl
    · have hsucc : j - k = j - (k + 1) + 1 := by omega
      rw [if_neg (Nat.not_lt.mpr hgt), if_neg (Nat.lt_asymm hgt), Memory.readWord_writeWord_of_ne m w (Nat.ne_of_gt hgt), hsucc,
        List.getElem?_cons_succ]

/-! ### Launch -/

theorem launch_of_size_out_of_range {n : Nat} (image : List Word) (h : n < 1 ∨ 32768 < n) :
    launch n image = .refused .memorySizeOutOfRange := if_pos h

section
variable {n : Nat} {image : List Word} (hlow : 1 ≤ n) (hhigh : n ≤ 32768)
include hlow hhigh

theorem launch_of_size_legal :
    launch n image = if n < image.length then .refused .imageTooLong
      else .next ((State.resetWith n).setMem (Memory.placeImage [] 0 image)) :=
  if_neg (not_or.mpr ⟨Nat.not_lt.mpr hlow, Nat.not_lt.mpr hhigh⟩)

theorem launch_of_fits (hfits : image.length ≤ n) :
    launch n image = .next ((State.resetWith n).setMem (Memory.placeImage [] 0 image)) := by
  rw [launch_of_size_legal hlow hhigh, if_neg (Nat.not_lt.mpr hfits)]

theorem launch_of_image_too_long (hlong : n < image.length) : launch n image = .refused .imageTooLong := by
  rw [launch_of_size_legal hlow hhigh, if_pos hlong]

end

/-- Settles O58: the three answers exclude each other; the image is placed from word 0 in a memory that reads 0 everywhere. -/
theorem launchPlacesTheImage : Obligations.LaunchPlacesTheImage := by
  intro n image
  have hread (k : Nat) : (Memory.placeImage [] 0 image).readWord k = (image[k]?).getD 0#16 := by
    rw [Memory.readWord_placeImage, if_neg (Nat.not_lt_zero k), Nat.sub_zero, Memory.readWord_nil]
  refine ⟨fun hlow hhigh hfits => ⟨_, launch_of_fits hlow hhigh hfits, fun k hk => ?placed, fun k hk => ?after, rfl⟩,
    launch_of_size_out_of_range image, launch_of_image_too_long⟩
  case placed =>
    rw [State.setMem_mem, hread, List.getElem?_eq_getElem hk, Option.getD_some]
  case after =>
    rw [State.setMem_mem, hread, List.getElem?_eq_none hk, Option.getD_none]

/-- Settles O14: a launch that is not refused has a legal size and an image that fits, and placing it keeps memory canonical and
inside. -/
theorem launchedMachineMeetsTheInvariant : Obligations.LaunchedMachineMeetsTheInvariant := by
  intro n image s h
  by_cases hrange : n < 1 ∨ 32768 < n
  · rw [launch_of_size_out_of_range image hrange] at h
    cases h
  · obtain ⟨hlow, hhigh⟩ : 1 ≤ n ∧ n ≤ 32768 := by omega
    by_cases hlong : n < image.length
    · rw [launch_of_image_too_long hlow hhigh hlong] at h
      cases h
    · rw [launch_of_fits hlow hhigh (Nat.not_lt.mp hlong)] at h
      cases h
      exact inv_resetWith_setMem hlow hhigh (Memory.wf_placeImage 0 image Memory.wf_nil)
        (Memory.inside_placeImage (by omega) (by simp))

end Sys2Proof.Machine

/-! PROOFS. The instructions over their operands: what MOV, CMP, SUB and ASR answer, where each goes on, the same register in both
operands, ADD and SUB as inverses (42_double_operand.md, 43_shifts.md, 40_operand_resolver.md section 4). -/

namespace Sys2Proof.Machine

/-! ### The instructions that store, over resolved operands -/

section
variable {src dst : Operand} {s t u : State} {p q : Phrase}

theorem exec_mov_of_resolved (hp : resolve src s = .ok p t) (hq : resolve dst t = .ok q u) :
    ∃ x, exec (.mov src dst) s = .next x ∧ writtenBack q p.value (moveFlags p.value) u x := by
  rw [exec_mov_of_resolvePair_ok (resolvePair_eq_ok.mpr ⟨t, hp, hq⟩)]
  exact finish_writeResult_of_resolved _ _ hq

theorem exec_add_of_resolved (hp : resolve src s = .ok p t) (hq : resolve dst t = .ok q u) :
    ∃ x, exec (.add src dst) s = .next x ∧
      writtenBack q (q.value + p.value) (addFlags q.value p.value (q.value + p.value)) u x := by
  rw [exec_add_of_resolvePair_ok (resolvePair_eq_ok.mpr ⟨t, hp, hq⟩)]
  exact finish_writeResult_of_resolved _ _ hq

theorem exec_sub_of_resolved (hp : resolve src s = .ok p t) (hq : resolve dst t = .ok q u) :
    ∃ x, exec (.sub src dst) s = .next x ∧
      writtenBack q (q.value - p.value) (subFlags q.value p.value (q.value - p.value)) u x := by
  rw [exec_sub_of_resolvePair_ok (resolvePair_eq_ok.mpr ⟨t, hp, hq⟩)]
  exact finish_writeResult_of_resolved _ _ hq

theorem exec_asl_of_resolved (hq : resolve dst s = .ok q u) :
    ∃ x, exec (.asl dst) s = .next x ∧
      writtenBack q (shiftLeft q.value) (shiftLeftFlags q.value (shiftLeft q.value)) u x := by
  rw [exec_asl_of_resolve_ok hq]
  exact finish_writeResult_of_resolved _ _ hq

theorem exec_asr_of_resolved (hq : resolve dst s = .ok q u) :
    ∃ x, exec (.asr dst) s = .next x ∧
      writtenBack q (shiftRight q.value) (shiftRightFlags q.value (shiftRight q.value)) u x := by
  rw [exec_asr_of_resolve_ok hq]
  exact finish_writeResult_of_resolved _ _ hq

end

/-- The fault of either operand ends a double-operand instruction in the state the fault left. -/
theorem exec_of_operand_stopped {i : Instr} {src dst : Operand} {s : State} {f : Phrase × Phrase → State → Access Unit}
    (hexec : exec i s = finish ((resolvePair src dst s).andThen f)) :
    (∀ t, resolve src s = .stopped t → exec i s = .next t) ∧
    (∀ p t u, resolve src s = .ok p t → resolve dst t = .stopped u → exec i s = .next u) := by
  refine ⟨fun t hp => ?source, fun p t u hp hq => ?destination⟩
  case source => rw [hexec, finish_andThen_of_resolvePair_stopped f (resolvePair_eq_stopped.mpr (.inl hp))]
  case destination =>
    rw [hexec, finish_andThen_of_resolvePair_stopped f (resolvePair_eq_stopped.mpr (.inr ⟨p, t, hp, hq⟩))]

/-- Settles O36: over resolved operands MOV writes the source's value back, with the flags of a move; an operand's fault ends it. -/
theorem movCompletes : Obligations.MovCompletes := fun _ _ _ =>
  ⟨fun _ _ _ _ hp hq => exec_mov_of_resolved hp hq, exec_of_operand_stopped rfl⟩

/-- The flags of a subtraction in the spelling of Boolean equality. -/
theorem subFlags_eq (d s res : Word) :
    subFlags d s res =
      ⟨res.msb, res == 0#16, (d.msb != s.msb) && (res.msb == s.msb), decide (d.toNat < s.toNat)⟩ := by
  ext
  case n => rfl
  case z => rfl
  case v =>
    show (decide (d.msb ≠ s.msb) && decide (res.msb = s.msb)) = ((d.msb != s.msb) && (res.msb == s.msb))
    rw [decide_not, bne, beq_eq_decide, beq_eq_decide]
  case c => rfl

/-- Settles O37: over resolved operands CMP replaces the flags by those of the subtraction, and nothing is written back. -/
theorem cmpCompletes : Obligations.CmpCompletes := by
  intro src dst s
  refine ⟨fun p t q u hp hq => ?_, exec_of_operand_stopped rfl⟩
  rw [exec_cmp_of_resolvePair_ok (resolvePair_eq_ok.mpr ⟨t, hp, hq⟩), subFlags_eq]
  rfl

/-- The difference of two words is the difference of the integers, modulo 2^16. -/
theorem sub_eq_ofInt (d e : Word) : d - e = BitVec.ofInt 16 (d.toNat - e.toNat : Int) := by
  rw [Int.sub_eq_add_neg, BitVec.ofInt_add, BitVec.ofInt_neg, BitVec.ofInt_natCast, BitVec.ofInt_natCast, BitVec.ofNat_toNat,
    BitVec.ofNat_toNat, BitVec.setWidth_eq, BitVec.setWidth_eq, BitVec.sub_eq_add_neg]

/-- Settles O39: over resolved operands SUB writes the difference back, which is that of the integers modulo 2^16. -/
theorem subCompletes : Obligations.SubCompletes := by
  intro src dst s
  refine ⟨fun p t q u hp hq => ?_, exec_of_operand_stopped rfl⟩
  obtain ⟨x, hx, hback⟩ := exec_sub_of_resolved hp hq
  rw [subFlags_eq] at hback
  exact ⟨x, q.value - p.value, hx, sub_eq_ofInt q.value p.value, hback⟩

/-! ### ASR -/

/-- The flags of a right shift: the sign is kept, so N is the old sign and V is clear. -/
theorem shiftRightFlags_eq (d : Word) :
    shiftRightFlags d (shiftRight d) = ⟨d.msb, shiftRight d == 0#16, false, d.getLsbD 0⟩ := by
  have hsign : (shiftRight d).msb = d.msb := by rw [shiftRight_eq_sshiftRight, BitVec.msb_sshiftRight]
  ext
  case n => exact hsign
  case z => rfl
  case v => exact decide_eq_false (not_not_intro hsign)
  case c => rfl

theorem shiftRight_toInt (d : Word) : (shiftRight d).toInt = d.toInt / 2 := by
  rw [shiftRight_eq_sshiftRight, BitVec.toInt_sshiftRight, Int.shiftRight_eq_div_pow]
  rfl

theorem exec_asr_of_resolve_stopped {dst : Operand} {s u : State} (h : resolve dst s = .stopped u) :
    exec (.asr dst) s = .next u := by
  show execAsr dst s = _
  rw [execAsr, h, Access.stopped_andThen, finish_stopped]

/-- Settles O41: the word shifted right with its sign is half its signed value, rounded toward minus infinity, and has its sign. -/
theorem asrCompletes : Obligations.AsrCompletes := by
  intro dst s
  refine ⟨fun q u hq => ?_, fun u hstop => exec_asr_of_resolve_stopped hstop⟩
  obtain ⟨x, hx, hback⟩ := exec_asr_of_resolved hq
  rw [shiftRightFlags_eq] at hback
  exact ⟨x, shiftRight q.value, hx, shiftRight_toInt q.value, hback⟩

/-! ### Where an instruction goes on -/

theorem readable_of_resolve_ok {o : Operand} {s t : State} {p : Phrase} (h : resolve o s = .ok p t) : o.readable s :=
  (operandResolvesExactlyWhenReadable o s).mp ⟨p, t, h⟩

theorem not_readable_of_resolve_stopped {o : Operand} {s t : State} (h : resolve o s = .stopped t) : ¬ o.readable s := by
  intro hread
  obtain ⟨p, u, hok⟩ := (operandResolvesExactlyWhenReadable o s).mpr hread
  cases h.symm.trans hok

theorem not_running_of_resolve_stopped {o : Operand} {s t : State} (h : resolve o s = .stopped t) : t.status ≠ .running := by
  obtain ⟨-, a, hfault, -⟩ := resolve_stopped h
  rw [hfault]
  nofun

/-- A double-operand instruction that keeps the status over resolved operands goes on exactly where both can be read. -/
theorem goesOn_of_pair {i : Instr} {src dst : Operand} {s : State} {f : Phrase × Phrase → State → Access Unit}
    (hrun : s.status = .running) (hexec : exec i s = finish ((resolvePair src dst s).andThen f))
    (hok : ∀ p t q u, resolve src s = .ok p t → resolve dst t = .ok q u → ∃ x, exec i s = .next x ∧ x.status = u.status) :
    ∃ t, exec i s = .next t ∧ (t.status = .running ↔ src.readable s ∧ dst.readable (stateAfter src s)) := by
  obtain ⟨hsource, hdestination⟩ := exec_of_operand_stopped hexec
  cases hp : resolve src s with
  | stopped t =>
    exact ⟨t, hsource t hp, iff_of_false (not_running_of_resolve_stopped hp) fun hread =>
      not_readable_of_resolve_stopped hp hread.1⟩
  | ok p t =>
    have hafter : stateAfter src s = t := by rw [stateAfter, hp]
    rw [hafter]
    cases hq : resolve dst t with
    | stopped u =>
      exact ⟨u, hdestination p t u hp hq, iff_of_false (not_running_of_resolve_stopped hq) fun hread =>
        not_readable_of_resolve_stopped hq hread.2⟩
    | ok q u =>
      obtain ⟨x, hx, hstatus⟩ := hok p t q u hp hq
      obtain ⟨-, ht, -⟩ := resolve_ok hp
      obtain ⟨-, hu, -⟩ := resolve_ok hq
      exact ⟨x, hx, iff_of_true (hstatus.trans (hu.trans (ht.trans hrun)))
        ⟨readable_of_resolve_ok hp, readable_of_resolve_ok hq⟩⟩

/-- A shift goes on exactly where its operand can be read. -/
theorem goesOn_of_single {i : Instr} {dst : Operand} {s : State} (hrun : s.status = .running)
    (hok : ∀ q u, resolve dst s = .ok q u → ∃ x, exec i s = .next x ∧ x.status = u.status)
    (hstop : ∀ u, resolve dst s = .stopped u → exec i s = .next u) :
    ∃ t, exec i s = .next t ∧ (t.status = .running ↔ dst.readable s) := by
  cases hq : resolve dst s with
  | stopped u =>
    exact ⟨u, hstop u hq, iff_of_false (not_running_of_resolve_stopped hq) (not_readable_of_resolve_stopped hq)⟩
  | ok q u =>
    obtain ⟨x, hx, hstatus⟩ := hok q u hq
    obtain ⟨-, hu, -⟩ := resolve_ok hq
    exact ⟨x, hx, iff_of_true (hstatus.trans (hu.trans hrun)) (readable_of_resolve_ok hq)⟩

/-- Settles O42: an operand resolves exactly where it is readable, a resolved one keeps the status, and an instruction that has its
operands keeps it too; the branches take none. -/
theorem instructionsGoOnExactlyWhereOperandsAreReadable : Obligations.InstructionsGoOnExactlyWhereOperandsAreReadable := by
  intro s src dst r n off i hrun
  refine ⟨?pair, ?single, ?branch, ?halt⟩
  case pair =>
    rintro (rfl | rfl | rfl | rfl)
    · exact goesOn_of_pair hrun rfl fun _ _ _ _ hp hq =>
        (exec_mov_of_resolved hp hq).imp fun _ ⟨hx, _, hstatus, _⟩ => ⟨hx, hstatus⟩
    · exact goesOn_of_pair hrun rfl fun _ t _ _ hp hq =>
        ⟨_, exec_cmp_of_resolvePair_ok (resolvePair_eq_ok.mpr ⟨t, hp, hq⟩), State.setFlags_status ..⟩
    · exact goesOn_of_pair hrun rfl fun _ _ _ _ hp hq =>
        (exec_add_of_resolved hp hq).imp fun _ ⟨hx, _, hstatus, _⟩ => ⟨hx, hstatus⟩
    · exact goesOn_of_pair hrun rfl fun _ _ _ _ hp hq =>
        (exec_sub_of_resolved hp hq).imp fun _ ⟨hx, _, hstatus, _⟩ => ⟨hx, hstatus⟩
  case single =>
    rintro (rfl | rfl)
    · exact goesOn_of_single hrun
        (fun _ _ hq => (exec_asl_of_resolved hq).imp fun _ ⟨hx, _, hstatus, _⟩ => ⟨hx, hstatus⟩)
        fun _ hq => exec_asl_of_resolve_stopped hq
    · exact goesOn_of_single hrun
        (fun _ _ hq => (exec_asr_of_resolved hq).imp fun _ ⟨hx, _, hstatus, _⟩ => ⟨hx, hstatus⟩)
        fun _ hq => exec_asr_of_resolve_stopped hq
  case branch =>
    rintro (rfl | rfl | rfl | rfl) <;> exact ⟨_, rfl, (branchWhen_status ..).trans hrun⟩
  case halt =>
    rintro rfl
    exact ⟨_, exec_halt s, rfl⟩

/-! ### One register in both operands -/

theorem resolve_register (r : Reg) (s : State) : resolve ⟨.register, r⟩ s = .ok ⟨.register r, s.reg r⟩ s := rfl

/-- Mode 2 on a register other than R7, in bounds, in the model's own operations. -/
theorem resolve_autoInc_of_inBounds {r : Reg} {s : State} (hr : r ≠ pcReg) (h : s.inBounds (s.reg r)) :
    resolve ⟨.autoInc, r⟩ s =
      .ok ⟨.memory (s.reg r), s.wordAt (s.reg r)⟩ ((countRead s).setReg r (s.reg r + wordStep)) := by
  rw [resolve_autoInc hr, resolveAutoInc, operandAt_of_inBounds h, Access.ok_andThen, countRead_reg]

theorem resolve_autoDec_of_inBounds {r : Reg} {s : State} (h : s.inBounds (s.reg r - wordStep)) :
    resolve ⟨.autoDec, r⟩ s =
      .ok ⟨.memory (s.reg r - wordStep), s.wordAt (s.reg r - wordStep)⟩ (countRead (stepBack r s)) := by
  rw [resolve_autoDec]
  exact operandAt_of_inBounds h

/-- Settles O35: each row from the phrases its operands resolve to, the second in the state the first has left, so that a register
the first has stepped is read, or stepped again, as it then stands. -/
theorem sameRegisterInBothOperands : Obligations.SameRegisterInBothOperands := by
  intro s r
  refine ⟨fun hr h => ⟨?registerToInc, ?incToRegister, ?incAddRegister⟩, fun hr h => ?registerToDec,
    fun hr h h' => ?incAddInc, ?double⟩
  case registerToInc =>
    obtain ⟨x, hx, -, hstatus, -, hword, hregs, -⟩ :=
      exec_mov_of_resolved (resolve_register r s) (resolve_autoInc_of_inBounds hr h)
    exact ⟨x, hx, hstatus, (hregs r).trans (State.setReg_reg_same ..), hword⟩
  case incToRegister =>
    obtain ⟨x, hx, -, hstatus, -, hreg, -⟩ :=
      exec_mov_of_resolved (resolve_autoInc_of_inBounds hr h) (resolve_register r _)
    exact ⟨x, hx, hstatus, hreg⟩
  case incAddRegister =>
    obtain ⟨x, hx, -, hstatus, -, hreg, -⟩ :=
      exec_add_of_resolved (resolve_autoInc_of_inBounds hr h) (resolve_register r _)
    rw [State.setReg_reg_same] at hreg
    exact ⟨x, hx, hstatus, hreg⟩
  case registerToDec =>
    obtain ⟨x, hx, -, hstatus, -, hword, hregs, -⟩ :=
      exec_mov_of_resolved (resolve_register r s) (resolve_autoDec_of_inBounds h)
    exact ⟨x, hx, hstatus, (hregs r).trans (State.setReg_reg_same ..), hword⟩
  case incAddInc =>
    have hstep : ((countRead s).setReg r (s.reg r + wordStep)).reg r = s.reg r + wordStep := State.setReg_reg_same ..
    have hin : ((countRead s).setReg r (s.reg r + wordStep)).inBounds (((countRead s).setReg r (s.reg r + wordStep)).reg r) := by
      rw [hstep]
      exact h'
    obtain ⟨x, hx, -, hstatus, -, hword, hregs, -⟩ :=
      exec_add_of_resolved (resolve_autoInc_of_inBounds hr h) (resolve_autoInc_of_inBounds hr hin)
    rw [hstep] at hword
    refine ⟨x, hx, hstatus, (hregs r).trans ?_, hword⟩
    rw [State.setReg_reg_same, hstep, BitVec.add_assoc]
    rfl
  case double =>
    obtain ⟨x, hx, -, hstatus, -, hreg, -⟩ := exec_add_of_resolved (resolve_register r s) (resolve_register r s)
    exact ⟨x, hx, hstatus, hreg.trans BitVec.two_mul.symm⟩

/-! ### ADD, then SUB -/

theorem exec_add_register (a d : Reg) (s : State) :
    exec (.add ⟨.register, a⟩ ⟨.register, d⟩) s =
      .next ((s.setReg d (s.reg d + s.reg a)).setFlags (addFlags (s.reg d) (s.reg a) (s.reg d + s.reg a))) := rfl

theorem exec_sub_register (a d : Reg) (s : State) :
    exec (.sub ⟨.register, a⟩ ⟨.register, d⟩) s =
      .next ((s.setReg d (s.reg d - s.reg a)).setFlags (subFlags (s.reg d) (s.reg a) (s.reg d - s.reg a))) := rfl

/-- Settles O56: the source is not the destination, so SUB takes from the sum what ADD has put into it, and every other register is
as before. -/
theorem addThenSubRestores : Obligations.AddThenSubRestores := by
  intro s a d hne
  refine ⟨_, _, exec_add_register a d s, exec_sub_register a d _, State.setReg_reg_same .., ?_⟩
  apply State.ext
  case regs =>
    apply State.regs_ext
    intro r
    rw [State.setFlags_reg, State.setFlags_reg, State.setFlags_reg, State.setReg_reg_same, State.setReg_reg_of_ne s _ hne,
      BitVec.add_sub_cancel]
    by_cases hr : r = d
    · subst hr
      exact State.setReg_reg_same ..
    · rw [State.setReg_reg_of_ne _ _ hr, State.setFlags_reg, State.setReg_reg_of_ne _ _ hr]
      rfl
  all_goals rfl

end Sys2Proof.Machine

/-! PROOFS. Frames: what each instruction leaves unchanged (40_operand_resolver.md R93, R96; 42_double_operand.md, 43_shifts.md),
control transfer by SOB and HALT (44_branches.md, 45_halt.md), and who writes the flags (46_condition_codes.md R163, R166). -/

namespace Sys2Proof.Machine

/-! ### Where a resolved destination is not -/

/-- A phrase points at a register only where that register is a mode 0 operand. -/
theorem place_ne_register {dst : Operand} {s u : State} {q : Phrase} {r : Reg} (hq : resolve dst s = .ok q u)
    (hne : dst ≠ ⟨.register, r⟩) : q.place ≠ .register r := by
  intro hplace
  obtain ⟨m, d⟩ := dst
  by_cases hm : m = .register
  · subst hm
    cases (place_of_resolve_register rfl hq).symm.trans hplace
    exact hne rfl
  · obtain ⟨ea, hea⟩ := place_of_resolve_memory hm hq
    cases hea.symm.trans hplace

/-- A register that is not the PC is changed by an operand only where a mode steps it. -/
theorem not_changes {o : Operand} {q : Reg} (hq : q ≠ pcReg) (h : ¬ o.steps q) : ¬ o.changes q :=
  not_or.mpr ⟨h, fun hpc => hq hpc.1⟩

/-! ### The frame of an instruction that stores -/

/-- The phrase an access answers for writeback, if no fault stops it. -/
def Access.written {α : Type} (dst : α → Phrase) : Access α → Option Phrase
  | .ok v _ => some (dst v)
  | .stopped _ => none

/-- What an instruction leaves unchanged that may change the registers of `free` and write back through `w`. -/
structure StoreFrame (free : Reg → Prop) (w : Option Phrase) (s t : State) : Prop where
  regs : ∀ q, ¬ free q → (∀ p, w = some p → p.place ≠ .register q) → t.reg q = s.reg q
  bytes : sameBytesOutside (w.bind Phrase.ea) s t
  memWords : t.memWords = s.memWords
  instr : t.counters.instr = s.counters.instr
  branch : t.counters.branch = s.counters.branch
  taken : t.counters.taken = s.counters.taken
  status : t.status = s.status ∨ ∃ a, t.status = .fault .bounds a

theorem StoreFrame.of_stopped {free : Reg → Prop} {s t : State} (h : StopsOutside free s t) : StoreFrame free none s t := by
  obtain ⟨hkeeps, a, hfault, -⟩ := h
  exact ⟨fun q hq _ => hkeeps.regs q hq, fun k _ => by rw [hkeeps.mem], hkeeps.memWords, hkeeps.instr, hkeeps.branch,
    hkeeps.taken, .inr ⟨a, hfault⟩⟩

theorem StoreFrame.of_writtenBack {free : Reg → Prop} {s u t : State} {p : Phrase} {res : Word} {f : Flags}
    (h : EndsWell free s u) (hback : writtenBack p res f u t) : StoreFrame free (some p) s t := by
  obtain ⟨hkeeps, hu⟩ := h
  obtain ⟨place, value⟩ := p
  cases place with
  | register r =>
    obtain ⟨-, hstatus, hsize, -, hregs, hbytes, hcounters⟩ := hback
    refine ⟨fun q hq hne => ?_, fun k _ => ?_, hsize.trans hkeeps.memWords, ?_, ?_, ?_, .inl (hstatus.trans hu)⟩
    · have hqr : q ≠ r := fun hqr => hne _ rfl (congrArg Place.register hqr.symm)
      exact (hregs q hqr).trans (hkeeps.regs q hq)
    · rw [hbytes, hkeeps.mem]
    · rw [hcounters, hkeeps.instr]
    · rw [hcounters, hkeeps.branch]
    · rw [hcounters, hkeeps.taken]
  | memory ea =>
    obtain ⟨-, hstatus, hsize, -, hregs, hbytes, hcounters⟩ := hback
    refine ⟨fun q hq _ => (hregs q).trans (hkeeps.regs q hq), fun k hk => ?_, hsize.trans hkeeps.memWords, ?_, ?_, ?_,
      .inl (hstatus.trans hu)⟩
    · rw [hbytes k (hk ea rfl), hkeeps.mem]
    · rw [hcounters, hkeeps.instr]
    · rw [hcounters, hkeeps.branch]
    · rw [hcounters, hkeeps.taken]

/-- The frame of a handler that takes its operands, writes a result back and replaces the flags. -/
theorem storeFrame_of_finish {α : Type} {free : Reg → Prop} {dst : α → Phrase} {res : α → Word} {f : α → Flags}
    {s t : State} {x : Access α} (hx : Behaves free (fun v => Phrase.inside s.memWords (dst v)) s x)
    (h : finish (x.andThen fun v u => writeResult (dst v) (res v) (f v) u) = .next t) :
    StoreFrame free (x.written dst) s t := by
  cases x with
  | stopped u =>
    cases h
    exact .of_stopped hx
  | ok v u =>
    obtain ⟨hends, hinside⟩ := hx
    rw [← hends.1.memWords] at hinside
    obtain ⟨y, hy, hback⟩ := writeResult_of_inside (res v) (f v) hinside
    rw [Access.ok_andThen, hy] at h
    cases h
    exact .of_writtenBack hends hback

/-- The address of the pair's destination is the one its phrase carries. -/
theorem pairEa_eq (src dst : Operand) (s : State) :
    pairEa src dst s = ((resolvePair src dst s).written Prod.snd).bind Phrase.ea := by
  unfold pairEa lastEa resolvePair
  cases resolve src s with
  | stopped t => rfl
  | ok p t => cases h : resolve dst t <;> simp [h, Access.written]

theorem lastEa_eq (dst : Operand) (s : State) : lastEa dst s = ((resolve dst s).written id).bind Phrase.ea := by
  unfold lastEa
  cases resolve dst s <;> rfl

/-- MOV, ADD and SUB have the frame of their resolved pair. -/
theorem storeFrame_of_exec_pair {src dst : Operand} {i : Instr} {s t : State}
    (hi : i = .mov src dst ∨ i = .add src dst ∨ i = .sub src dst) (h : exec i s = .next t) :
    StoreFrame (fun q => src.changes q ∨ dst.changes q) ((resolvePair src dst s).written Prod.snd) s t := by
  have hpair := resolvePair_behaves src dst s
  obtain rfl | rfl | rfl := hi
  · exact storeFrame_of_finish hpair h
  · exact storeFrame_of_finish hpair h
  · exact storeFrame_of_finish hpair h

/-- Settles O47: all three write back through the pair's destination, whose address is the one they are said to store to; a register
that no mode steps and that is no mode 0 destination is not the phrase's. -/
theorem frameOfMovAddSub : Obligations.FrameOfMovAddSub := by
  intro src dst i s t hi h
  have hframe := storeFrame_of_exec_pair hi h
  have haddr : storeAddress i s = pairEa src dst s := by
    obtain rfl | rfl | rfl := hi <;> rfl
  rw [haddr, pairEa_eq]
  refine ⟨fun q hpc hsrc hdst hne => ?_, hframe.bytes, hframe.memWords, hframe.instr, hframe.branch, hframe.taken,
    hframe.status⟩
  refine hframe.regs q (not_or.mpr ⟨not_changes hpc hsrc, not_changes hpc hdst⟩) fun p hp => ?_
  cases hx : resolvePair src dst s with
  | stopped u => rw [hx] at hp; cases hp
  | ok pq u =>
    rw [hx] at hp
    cases hp
    obtain ⟨v, -, hq⟩ := resolvePair_eq_ok.mp hx
    exact place_ne_register hq hne

/-- Settles O49: as MOV's, with the one operand. -/
theorem frameOfShifts : Obligations.FrameOfShifts := by
  intro dst i s t hi h
  have hframe : StoreFrame dst.changes ((resolve dst s).written id) s t := by
    have hsingle := resolve_behaves dst s
    obtain rfl | rfl := hi
    · exact storeFrame_of_finish (dst := id) hsingle h
    · exact storeFrame_of_finish (dst := id) hsingle h
  have haddr : storeAddress i s = lastEa dst s := by
    obtain rfl | rfl := hi <;> rfl
  rw [haddr, lastEa_eq]
  refine ⟨fun q hpc hdst hne => ?_, hframe.bytes, hframe.memWords, hframe.instr, hframe.branch, hframe.taken, hframe.status⟩
  refine hframe.regs q (not_changes hpc hdst) fun p hp => ?_
  cases hx : resolve dst s with
  | stopped u => rw [hx] at hp; cases hp
  | ok q u =>
    rw [hx] at hp
    cases hp
    exact place_ne_register hx hne

/-! ### The frame of CMP -/

/-- CMP keeps what taking its operands keeps: nothing but the flags is written after that. -/
theorem exec_cmp_keeps {src dst : Operand} {s t : State} (h : exec (.cmp src dst) s = .next t) :
    ∃ u, KeepsBut (fun q => src.changes q ∨ dst.changes q) s u ∧
      (u.status = s.status ∨ ∃ a, u.status = .fault .bounds a) ∧ t = u.setFlags t.flags := by
  have hpair := resolvePair_behaves src dst s
  cases hx : resolvePair src dst s with
  | stopped u =>
    rw [hx] at hpair
    obtain ⟨hkeeps, a, hfault, -⟩ := hpair
    cases h.symm.trans (finish_andThen_of_resolvePair_stopped _ hx)
    exact ⟨_, hkeeps, .inr ⟨a, hfault⟩, rfl⟩
  | ok pq u =>
    rw [hx] at hpair
    obtain ⟨⟨hkeeps, hstatus⟩, -⟩ := hpair
    cases h.symm.trans (exec_cmp_of_resolvePair_ok hx)
    exact ⟨_, hkeeps, .inl hstatus, rfl⟩

/-- Settles O48: the frame of taking the operands. -/
theorem frameOfCmp : Obligations.FrameOfCmp := by
  intro src dst s t h
  obtain ⟨u, hkeeps, hstatus, ht⟩ := exec_cmp_keeps h
  rw [ht]
  exact ⟨fun q hpc hsrc hdst => hkeeps.regs q (not_or.mpr ⟨not_changes hpc hsrc, not_changes hpc hdst⟩),
    fun k => congrArg (Memory.readByte · k) hkeeps.mem, hkeeps.memWords, hkeeps.instr, hkeeps.write,
    hkeeps.branch, hkeeps.taken, hstatus⟩

/-! ### Control transfer -/

/-- SOB is a branch, on its register not being 1, from the state in which the register has been decremented. -/
theorem exec_sob (r : Reg) (off : Nat) (s : State) :
    exec (.sob r off) s =
      .next (branchWhen (decide (s.reg r ≠ 1#16)) (-(2 * (off : Int))) (s.setReg r (s.reg r - 1#16))) := by
  have hzero : (s.setReg r (s.reg r - 1#16)).reg r ≠ 0#16 ↔ s.reg r ≠ 1#16 := by
    rw [State.setReg_reg_same, ne_eq, BitVec.sub_eq_iff_eq_add, BitVec.zero_add]
  show execSob r off s = _
  rw [execSob, decide_eq_decide.mpr hzero]

theorem sub_one_eq_add_displacement (w : Word) : w - 1#16 = w + displacement (-1) := BitVec.sub_eq_add_neg w 1#16

theorem add_displacement_add (w : Word) (d e : Int) : w + displacement d + displacement e = w + displacement (d + e) := by
  rw [BitVec.add_assoc, displacement, displacement, displacement, BitVec.ofInt_add]

/-- Settles O45: SOB is a branch from the state with its register decremented, so the displacement is added to the PC of that
state, which with R7 is the decremented one. -/
theorem sobDecrementsAndBranchesBack : Obligations.SobDecrementsAndBranchesBack := by
  intro s r off
  refine ⟨_, exec_sob r off s, fun hr => ⟨?reg, fun hne => ?taken, fun hone => ?notTaken⟩, ?pc, ?counters,
    fun q hq hpc => ?other, branchWhen_flags .., branchWhen_status .., branchWhen_mem .., branchWhen_memWords ..⟩
  case reg => rw [branchWhen_reg_of_ne _ _ _ hr, State.setReg_reg_same]
  case taken =>
    rw [branchWhen_pc, if_pos (decide_eq_true hne), State.setReg_pc_of_ne s _ hr, add_displacement, Int.sub_eq_add_neg]
  case notTaken => rw [decide_eq_false (not_not_intro hone), branchWhen_false, countBranch_pc, State.setReg_pc_of_ne s _ hr]
  case pc =>
    rintro rfl
    have hpc : (s.setReg pcReg (s.reg pcReg - 1#16)).pc = s.pc - 1#16 := State.setPc_pc ..
    refine ⟨fun (hne : s.reg pcReg ≠ 1#16) => ?_, fun (hone : s.reg pcReg = 1#16) => ?_⟩
    · rw [branchWhen_pc, if_pos (decide_eq_true hne), hpc, sub_one_eq_add_displacement, add_displacement_add, add_displacement,
        Int.sub_eq_add_neg, Int.sub_eq_add_neg, Int.add_assoc]
    · rw [decide_eq_false (not_not_intro hone), branchWhen_false, countBranch_pc, hpc, show s.pc = 1#16 from hone, BitVec.sub_self]
  case counters =>
    rw [branchWhen_counters, State.setReg_counters]
    by_cases hone : s.reg r = 1#16
    · rw [if_pos hone, decide_eq_false (not_not_intro hone)]
      rfl
    · rw [if_neg hone, decide_eq_true hone]
      rfl
  case other => rw [branchWhen_reg_of_ne _ _ _ hpc, State.setReg_reg_of_ne s _ hq]

/-- Settles O46: that is all HALT's handler does. -/
theorem haltStopsTheCore : Obligations.HaltStopsTheCore := exec_halt

/-! ### The frame of the branches and HALT -/

/-- What BEQ, BNE, BR, SOB and HALT leave unchanged; a register `q` may change that is SOB's own. -/
structure ControlFrame (i : Instr) (n : Nat) (s t : State) : Prop where
  regs : ∀ q, q ≠ pcReg → i ≠ .sob q n → t.reg q = s.reg q
  halted : i = .halt → t.pc = s.pc ∧ t.counters = s.counters
  flags : t.flags = s.flags
  bytes : ∀ k, t.mem.readByte k = s.mem.readByte k
  memWords : t.memWords = s.memWords
  instr : t.counters.instr = s.counters.instr
  fetch : t.counters.fetch = s.counters.fetch
  read : t.counters.read = s.counters.read
  write : t.counters.write = s.counters.write
  status : i ≠ .halt → t.status = s.status

/-- A branch from a state that differs in its registers alone. -/
theorem ControlFrame.of_branchWhen {i : Instr} {n : Nat} {s : State} (b : Bool) (d : Int) (regs : Vector Word 8) (hi : i ≠ .halt)
    (hregs : ∀ q, q ≠ pcReg → i ≠ .sob q n → State.reg { s with regs := regs } q = s.reg q) :
    ControlFrame i n s (branchWhen b d { s with regs := regs }) := by
  have hcounters := branchWhen_counters b d { s with regs := regs }
  exact {
    regs := fun q hpc hq => (branchWhen_reg_of_ne b d _ hpc).trans (hregs q hpc hq)
    halted := fun hhalt => absurd hhalt hi
    flags := branchWhen_flags ..
    bytes := fun k => congrArg (Memory.readByte · k) (branchWhen_mem ..)
    memWords := branchWhen_memWords ..
    instr := by rw [hcounters]
    fetch := by rw [hcounters]
    read := by rw [hcounters]
    write := by rw [hcounters]
    status := fun _ => branchWhen_status .. }

theorem ControlFrame.of_halt (n : Nat) (s : State) : ControlFrame .halt n s (s.setStatus .halted) where
  regs _ _ _ := rfl
  halted _ := ⟨rfl, rfl⟩
  flags := rfl
  bytes _ := rfl
  memWords := rfl
  instr := rfl
  fetch := rfl
  read := rfl
  write := rfl
  status hne := absurd rfl hne

/-- The five instructions that touch no memory and set no flag. -/
theorem controlFrame_of_exec {i : Instr} {r : Reg} {off : Int} {n : Nat} {s t : State}
    (hi : i = .beq off ∨ i = .bne off ∨ i = .br off ∨ i = .sob r n ∨ i = .halt) (h : exec i s = .next t) :
    ControlFrame i n s t := by
  obtain rfl | rfl | rfl | rfl | rfl := hi
  · cases h
    exact .of_branchWhen _ _ s.regs nofun fun _ _ _ => rfl
  · cases h
    exact .of_branchWhen _ _ s.regs nofun fun _ _ _ => rfl
  · cases h
    exact .of_branchWhen _ _ s.regs nofun fun _ _ _ => rfl
  · cases h
    refine .of_branchWhen _ _ _ nofun fun q _ hq => State.setReg_reg_of_ne s _ ?_
    rintro rfl
    exact hq rfl
  · cases h
    exact .of_halt n s

/-- Settles O50: the first four are a branch from a state in which at most SOB's register differs; HALT writes the status. -/
theorem frameOfBranchesAndHalt : Obligations.FrameOfBranchesAndHalt := by
  intro i r off n s t hi h
  obtain ⟨hregs, hhalted, hflags, hbytes, hsize, hinstr, hfetch, hread, hwrite, hstatus⟩ := controlFrame_of_exec hi h
  exact ⟨hregs, hhalted, hflags, hbytes, hsize, hinstr, hfetch, hread, hwrite, hstatus⟩

/-! ### Who writes the flags -/

/-- An access that leaves the flags as they were, whichever way it ends. -/
def KeepsFlags {α : Type} (s : State) : Access α → Prop
  | .ok _ t => t.flags = s.flags
  | .stopped t => t.flags = s.flags

theorem fetchWord_keepsFlags (s : State) : KeepsFlags s (fetchWord s) := by
  rw [fetchWord_eq]
  split <;> rfl

theorem resolve_keepsFlags (o : Operand) (s : State) : KeepsFlags s (resolve o s) := by
  cases h : resolve o s with
  | ok p t =>
    obtain ⟨hkeeps, -⟩ := resolve_ok h
    exact hkeeps.flags
  | stopped t =>
    obtain ⟨hkeeps, -⟩ := resolve_stopped h
    exact hkeeps.flags

theorem update_keepsFlags (p : Phrase) (v : Word) (s : State) : KeepsFlags s (update p v s) := by
  obtain ⟨place, value⟩ := p
  cases place with
  | register r => rfl
  | memory ea =>
    show KeepsFlags s (dataWrite ea v s)
    rw [dataWrite_eq]
    split <;> rfl

theorem KeepsFlags.of_eq {α : Type} {s t : State} {x : Access α} (hx : KeepsFlags s x)
    (h : (∃ v, x = .ok v t) ∨ x = .stopped t) : t.flags = s.flags := by
  obtain ⟨v, rfl⟩ | rfl := h
  · exact hx
  · exact hx

/-- Settles O51: the six by their handlers over resolved operands; the five by their frame; every access the handlers are made of
keeps the flags. -/
theorem flagsAreWrittenOnlyByTheirInstructions : Obligations.FlagsAreWrittenOnlyByTheirInstructions := by
  refine ⟨fun src dst s t u x p q hp hq => ?pair, fun dst s u x q hq => ?shift, fun i off r n s x hi h => ?control,
    fun o s t p v w h => ?access, fun s t h => ?counters⟩
  case pair =>
    exact ⟨flags_of_exec_mov hp hq, flags_of_exec_cmp hp hq, flags_of_exec_add hp hq, flags_of_exec_sub hp hq⟩
  case shift =>
    refine ⟨flags_of_exec_asl hq, fun hx => ?_⟩
    rw [flags_of_exec_asr hq hx, shiftRight_eq_sshiftRight]
  case control => exact (controlFrame_of_exec hi h).flags
  case access =>
    obtain h | h | h | h | h | h := h
    · exact (resolve_keepsFlags o s).of_eq (.inl ⟨p, h⟩)
    · exact (resolve_keepsFlags o s).of_eq (.inr h)
    · exact (fetchWord_keepsFlags s).of_eq (.inl ⟨w, h⟩)
    · exact (fetchWord_keepsFlags s).of_eq (.inr h)
    · exact (update_keepsFlags p v s).of_eq (.inl ⟨(), h⟩)
    · exact (update_keepsFlags p v s).of_eq (.inr h)
  case counters =>
    obtain rfl | rfl | rfl | rfl | rfl | rfl | rfl := h
    · rfl
    · rfl
    · rfl
    · rfl
    · rfl
    · rfl
    · exact completeStep_flags s

/-! ### V and C of a subtraction -/

/-- Overflow by the signs: the operands differ and the result has the subtrahend's. -/
theorem subFlags_v_iff_signs (d e res : Word) : (subFlags d e res).v = true ↔ d.msb ≠ e.msb ∧ res.msb = e.msb := by
  rw [subFlags_eq, Bool.and_eq_true, bne_iff_ne, beq_iff_eq]

/-- The signs show an overflow exactly where the signed difference of two words leaves their range. -/
theorem subFlags_v_iff_signed_range (d e : Word) :
    (subFlags d e (d - e)).v = true ↔ d.toInt - e.toInt < -32768 ∨ 32767 < d.toInt - e.toInt := by
  have hsigns : ∀ a b r : Bool, ((a != b) && (r == b)) = (!a && b && r || a && !b && !r) := by decide
  have hoverflow : (subFlags d e (d - e)).v = d.ssubOverflow e := by
    rw [subFlags_eq, BitVec.ssubOverflow_eq]
    exact hsigns d.msb e.msb (d - e).msb
  rw [hoverflow, BitVec.ssubOverflow, Bool.or_eq_true, decide_eq_true_iff, decide_eq_true_iff]
  omega

/-- Overflow as one bit: the destination differs in the sign from the source and from the result. -/
theorem subFlags_v_eq_msb (d e res : Word) : (subFlags d e res).v = ((d ^^^ e) &&& (d ^^^ res)).msb := by
  have hsigns : ∀ a b r : Bool, ((a != b) && (r == b)) = ((a ^^ b) && (a ^^ r)) := by decide
  rw [subFlags_eq, BitVec.msb_and, BitVec.msb_xor, BitVec.msb_xor]
  exact hsigns d.msb e.msb res.msb

theorem subFlags_c_iff_borrow (d e res : Word) : (subFlags d e res).c = true ↔ (d.toNat : Int) - e.toNat < 0 := by
  rw [subFlags_eq, decide_eq_true_iff]
  omega

/-- Settles O54: SUB and CMP leave the flags of the subtraction, whose V and C have each of the rule's forms. -/
theorem subFlagsAreOverflowAndBorrow : Obligations.SubFlagsAreOverflowAndBorrow := by
  intro i src dst s t u x p q hi hp hq hx d e res
  have hres : d - e = res := sub_eq_ofInt d e
  have hflags : x.flags = subFlags d e res := by
    rw [← hres]
    obtain rfl | rfl := hi
    · exact flags_of_exec_sub hp hq hx
    · exact flags_of_exec_cmp hp hq hx
  rw [hflags]
  exact ⟨subFlags_v_iff_signs d e res, hres ▸ subFlags_v_iff_signed_range d e, subFlags_v_eq_msb d e res,
    subFlags_c_iff_borrow d e res⟩

end Sys2Proof.Machine
